-- ==== Sys2Proof/Word.lean ====
section
/-! DEFINITION. The host word of HGS-DSPWM: 32 bits (00_scope.md R9, D17), and the byte of a host bridge (20_memory.md R46). -/

namespace Sys2Proof

/-- A command word or a register's value: the port moves exactly one of these per access (20_memory.md R45). -/
abbrev Word := BitVec 32

/-- A byte of a word as a host bridge serialises it (20_memory.md R46). -/
abbrev Byte := BitVec 8

end Sys2Proof
end

