-- ==== Sys2Proof/Syntax.lean ====
section
/-! DEFINITION. The command set of HGS-DSPWM: one constructor per row of the opcode table (30_encoding.md R59). -/

namespace Sys2Proof

/-- The nine opcodes of the map of 30_encoding.md R59. -/
inductive Opcode where
  | nop | cfgExtra | cfgTimeout | cfgSck | cfgPwm | lock | read | apply | clear
  deriving DecidableEq, Repr

/-- The DIR field of an APPLY word (30_encoding.md R67). `reserved` is 0b11, "illegal value, code 3": the decoder
keeps it, because the lock check of R70 comes before the value check. -/
inductive DirField where
  | stop | fwd | bwd | reserved
  deriving DecidableEq, Repr

/-- One host command with the raw, unsigned fields of its word (30_encoding.md R60 to R66). A field may hold a value
its command rejects: the check of R70 is the machine's, not the decoder's. -/
inductive Instr where
  /-- NOP (42_control.md R122). -/
  | nop
  /-- CFG_EXTRA n (40_adc_deserializer.md R76). -/
  | cfgExtra (n : BitVec 2)
  /-- CFG_TIMEOUT t (40_adc_deserializer.md R77). -/
  | cfgTimeout (t : BitVec 24)
  /-- CFG_SCK h (40_adc_deserializer.md R78). -/
  | cfgSck (h : BitVec 8)
  /-- CFG_PWM p (41_pwm_generator.md R100). -/
  | cfgPwm (p : BitVec 16)
  /-- LOCK (42_control.md R123). -/
  | lock
  /-- READ (40_adc_deserializer.md R79). -/
  | read
  /-- APPLY d, D (41_pwm_generator.md R102). -/
  | apply (dir : DirField) (duty : BitVec 7)
  /-- CLEAR (42_control.md R124). -/
  | clear
  deriving DecidableEq, Repr

/-- The opcode of a command. -/
def Instr.opcode : Instr → Opcode
  | .nop => .nop
  | .cfgExtra _ => .cfgExtra
  | .cfgTimeout _ => .cfgTimeout
  | .cfgSck _ => .cfgSck
  | .cfgPwm _ => .cfgPwm
  | .lock => .lock
  | .read => .read
  | .apply _ _ => .apply
  | .clear => .clear

end Sys2Proof
end

