-- ==== Sys2Proof/WellFormed.lean ====
section
/-! DEFINITION. Which commands an assembler writes: the operand ranges of 30_encoding.md R74, which are the legal values of R61 to R66. -/

namespace Sys2Proof

/-- EXTRA is 1, 2 or 3; 0 is an illegal value (30_encoding.md R61). -/
def wfExtra (n : BitVec 2) : Bool := n != 0#2

/-- HALF is 1 to 255; 0 is an illegal value (30_encoding.md R63). -/
def wfHalf (h : BitVec 8) : Bool := h != 0#8

/-- SLICE is 1 to 65535; 0 is an illegal value (30_encoding.md R64). -/
def wfSlice (p : BitVec 16) : Bool := p != 0#16

/-- DIR is STOP, FWD or BWD; 0b11 is an illegal value (30_encoding.md R67). -/
def wfDir (d : DirField) : Bool := d != .reserved

/-- DUTY is 0 to 100, for every DIR (30_encoding.md R66). -/
def wfDuty (duty : BitVec 7) : Bool := duty.toNat ≤ 100

/-- The operand ranges of the assembly syntax (30_encoding.md R74): "An assembler refuses an operand outside the
listed range rather than encoding an illegal value." -/
def Instr.wellFormed : Instr → Bool
  | .nop => true
  | .cfgExtra n => wfExtra n
  | .cfgTimeout _ => true
  | .cfgSck h => wfHalf h
  | .cfgPwm p => wfSlice p
  | .lock => true
  | .read => true
  | .apply dir duty => wfDir dir && wfDuty duty
  | .clear => true

end Sys2Proof
end

