-- ==== Sys2Proof/Decode.lean ====
section
/-! DEFINITION. From command words to commands and back: the opcode map, the reserved-bit masks and the fields of 30_encoding.md R58 to R71, total on every word, and the byte order of a host bridge (20_memory.md R46). -/

namespace Sys2Proof

/-- Why a word is no command: the first two checks of 30_encoding.md R70. -/
inductive DecodeError where
  /-- op ≥ 0x9 (R71), ERR_CODE 1. -/
  | reservedOpcode
  /-- A reserved bit of the operand area is 1 (R59 masks), ERR_CODE 2. The opcode is kept: a rejected APPLY also stops the drive. -/
  | reservedBits (op : Opcode)
  deriving DecidableEq, Repr

/-- `op = w[31:28]` as the opcode map of 30_encoding.md R59 gives it; 0x9 to 0xF are reserved. -/
def Opcode.ofBits (b : BitVec 4) : Option Opcode :=
  match b with
  | 0x0#4 => some .nop
  | 0x1#4 => some .cfgExtra
  | 0x2#4 => some .cfgTimeout
  | 0x3#4 => some .cfgSck
  | 0x4#4 => some .cfgPwm
  | 0x5#4 => some .lock
  | 0x6#4 => some .read
  | 0x7#4 => some .apply
  | 0x8#4 => some .clear
  | _ => none

/-- RESERVED_MASK[op], the reserved bits of the operand area (30_encoding.md R59). -/
def Opcode.reservedMask : Opcode → Word
  | .nop => 0x0FFFFFFF#32
  | .cfgExtra => 0x0FFFFFFC#32
  | .cfgTimeout => 0x0F000000#32
  | .cfgSck => 0x0FFFFF00#32
  | .cfgPwm => 0x0FFF0000#32
  | .lock => 0x0FFFFFFF#32
  | .read => 0x0FFFFFFF#32
  | .apply => 0x0FFFFE00#32
  | .clear => 0x0FFFFFFF#32

/-- The DIR field's encoding (30_encoding.md R67). -/
def DirField.ofBits (b : BitVec 2) : DirField :=
  match b with
  | 0#2 => .stop
  | 1#2 => .fwd
  | 2#2 => .bwd
  | _ => .reserved

/-- The DIR field's bits (30_encoding.md R67). -/
def DirField.toBits : DirField → BitVec 2
  | .stop => 0#2
  | .fwd => 1#2
  | .bwd => 2#2
  | .reserved => 3#2

/-- `w[hi:lo]` with hi = lo + n - 1 (00_scope.md §5). -/
def field (w : Word) (lo n : Nat) : BitVec n := w.extractLsb' lo n

/-- The fields of an opcode's word (30_encoding.md R60 to R66). -/
def Opcode.instr (op : Opcode) (w : Word) : Instr :=
  match op with
  | .nop => .nop
  | .cfgExtra => .cfgExtra (field w 0 2)
  | .cfgTimeout => .cfgTimeout (field w 0 24)
  | .cfgSck => .cfgSck (field w 0 8)
  | .cfgPwm => .cfgPwm (field w 0 16)
  | .lock => .lock
  | .read => .read
  | .apply => .apply (DirField.ofBits (field w 7 2)) (field w 0 7)
  | .clear => .clear

/-- The decoder: total, one outcome per word (30_encoding.md R68), reserved opcodes before reserved bits (R70). -/
def decode (w : Word) : Except DecodeError Instr :=
  match Opcode.ofBits (field w 28 4) with
  | none => .error .reservedOpcode
  | some op => if w &&& op.reservedMask = 0#32 then .ok (op.instr w) else .error (.reservedBits op)

/-- The word of a command: R60, and the "Encoding" lines of R76 to R79, R100, R102. -/
def encode : Instr → Word
  | .nop => 0x00000000#32
  | .cfgExtra n => 0x10000000#32 ||| n.setWidth 32
  | .cfgTimeout t => 0x20000000#32 ||| t.setWidth 32
  | .cfgSck h => 0x30000000#32 ||| h.setWidth 32
  | .cfgPwm p => 0x40000000#32 ||| p.setWidth 32
  | .lock => 0x50000000#32
  | .read => 0x60000000#32
  | .apply dir duty => 0x70000000#32 ||| (dir.toBits.setWidth 32 <<< 7) ||| duty.setWidth 32
  | .clear => 0x80000000#32

/-- A word as a host bridge serialises it: byte k is bits [8k+7:8k] (20_memory.md R46). -/
def wordToBytes (w : Word) : List Byte := [field w 0 8, field w 8 8, field w 16 8, field w 24 8]

/-- The word of four bytes of a host bridge, the first the least significant (20_memory.md R46). -/
def wordOfBytes (b0 b1 b2 b3 : Byte) : Word :=
  b0.setWidth 32 ||| (b1.setWidth 32 <<< 8) ||| (b2.setWidth 32 <<< 16) ||| (b3.setWidth 32 <<< 24)

/-- One command read from a host bridge's bytes, with the bytes after it; fewer than four bytes are no word
(20_memory.md R45, R46). -/
def decodeBytes : List Byte → Option (Except DecodeError Instr × List Byte)
  | b0 :: b1 :: b2 :: b3 :: rest => some (decode (wordOfBytes b0 b1 b2 b3), rest)
  | _ => none

/-- The word whose lowest `nbits` bits are `w`'s and whose other bits are 0. -/
def tableWord (nbits w : Nat) : Word := BitVec.ofNat 32 (w % 2 ^ nbits)

/-- What the decoder reads from an instruction whose bits are `w`, numbered as the opcode table numbers them: the
bytes of the word, laid out as a host bridge stores them and given to `decodeBytes` (assumption 16). -/
def decodeTableWord (nbits w : Nat) : Option Instr :=
  match decodeBytes (wordToBytes (tableWord nbits w)) with
  | some (.ok i, _) => some i
  | _ => none

end Sys2Proof
end

