-- ==== Sys2Proof/Config.lean ====
section
/-! DEFINITION. What the spec leaves to the ADC and to the platform: the free DOUT draw (40_adc_deserializer.md R93) and the open electrical parameters (92_eei_decisions.md, OPEN parameters). -/

namespace Sys2Proof

/-- The synchronised DOUT value of cycle n where the model's input does not name one: "a free 1-bit draw per cycle"
(40_adc_deserializer.md R80, R93; 93 U4). It has no body, so nothing can be proved of its value (assumption 2). -/
opaque Config.freeDout : Nat → Bool

/-- The depth of the DOUT synchroniser, SYNC_LAT = 2 flip-flops (00_scope.md R9, 40_adc_deserializer.md R80). It is
abstracted away by the model's input and used only by the electrical bound of 70_reset_and_hazards.md R150. -/
def Config.syncLat : Nat := 2

/-- The OPEN parameters of 92_eei_decisions.md: "A model takes each of these as an argument. None changes a rule."
Only the bounds of 70_reset_and_hazards.md R150 to R152 (Safety.lean) read them (assumption 17). -/
structure Config.Platform where
  /-- F_CLK, the clk frequency in Hz (00_scope.md R10). -/
  fClk : Rat
  /-- T_VALID, the ADC's delay from SCK rising to DOUT valid, in seconds (R150). -/
  tValid : Rat
  /-- T_CONV, the ADC's conversion period, in seconds (R152). -/
  tConv : Rat
  /-- T_SCK_MAX, the longest SCK high time the ADC allows, in seconds (R151). -/
  tSckMax : Rat
  deriving DecidableEq, Repr

/-- T_clk, one clk cycle in seconds. -/
def Config.Platform.tClk (p : Config.Platform) : Rat := 1 / p.fClk

end Sys2Proof
end

