-- ==== Sys2Proof/Machine/State.lean ====
section
/-! DEFINITION. The architectural state of the block (10_state.md R13 to R32), field by field with the spec's widths, the inputs of a cycle (00_scope.md R7, 20_memory.md R40), and the reset state (70_reset_and_hazards.md R139). -/

namespace Sys2Proof.Machine

/-- A direction the PWM generator drives or holds pending: 0 STOP, 1 FWD, 2 BWD; encoding 3 is never written
(10_state.md R27, R29; 93 U13; assumption 6). -/
inductive Dir where
  | stop | fwd | bwd
  deriving DecidableEq, Repr

/-- The direction most recently driven: 0 UNKNOWN, 1 FWD, 2 BWD; encoding 3 is never written (10_state.md R30). -/
inductive LastDir where
  | unknown | fwd | bwd
  deriving DecidableEq, Repr

/-- The deserializer's state machine: 0 IDLE, 1 WAIT, 2 HIGH, 3 LOW (10_state.md R19). -/
inductive RdState where
  | idle | wait | high | low
  deriving DecidableEq, Repr

/-- The ERR_CODE values 0 to 7 of 60_exceptions.md R126; 8 to 15 are never produced (93 U12, assumption 6). -/
inductive ErrCode where
  | none | reservedOpcode | reservedBits | illegalValue | configLocked | notLocked | readBusy | configIncomplete
  deriving DecidableEq, Repr

/-- The configuration fields (10_state.md §2.1, R14 to R18). -/
structure Conf where
  /-- R14. -/
  cfgExtra : BitVec 2
  /-- R15. -/
  cfgTimeout : BitVec 24
  /-- R16. -/
  cfgSckHalf : BitVec 8
  /-- R17. -/
  cfgSlice : BitVec 16
  /-- R18. -/
  locked : Bool
  deriving DecidableEq, Repr

/-- The deserializer fields (10_state.md §2.2, R19 to R26). -/
structure Deser where
  /-- R19. -/
  rdState : RdState
  /-- R20. -/
  waitCnt : BitVec 24
  /-- R21. -/
  halfCnt : BitVec 8
  /-- R22. -/
  pulseCnt : BitVec 5
  /-- R23. -/
  acc : BitVec 24
  /-- R24. -/
  sample : Word
  /-- R25. -/
  valid : Bool
  /-- R26. -/
  nrdy : Bool
  deriving DecidableEq, Repr

/-- The PWM generator fields (10_state.md §2.3, R27 to R31). -/
structure Pwm where
  /-- R27. -/
  actDir : Dir
  /-- R27. -/
  actDuty : BitVec 7
  /-- R28. -/
  sliceCnt : BitVec 7
  /-- R28. -/
  tickCnt : BitVec 16
  /-- R29. -/
  pendValid : Bool
  /-- R29. -/
  pendDir : Dir
  /-- R29. -/
  pendDuty : BitVec 7
  /-- R30. -/
  lastDir : LastDir
  /-- R31. -/
  stopCnt : BitVec 23
  deriving DecidableEq, Repr

/-- The error fields (10_state.md §2.4, R32). -/
structure Err where
  cmdErr : Bool
  errCode : ErrCode
  deriving DecidableEq, Repr

/-- The inputs of one cycle (00_scope.md R7): rst, the host port's signals (20_memory.md R40), and the synchronised
DOUT (40_adc_deserializer.md R80): `some b` where the input names it, `none` for the free draw (assumptions 1, 2). -/
structure Input where
  rst : Bool
  busWr : Bool
  busRd : Bool
  busAddr : BitVec 5
  busWdata : Word
  dout : Option Bool
  deriving DecidableEq, Repr

/-- A cycle in which the host does nothing and DOUT is a free draw. -/
def Input.idle : Input :=
  { rst := false, busWr := false, busRd := false, busAddr := 0, busWdata := 0, dout := none }

/-- The block's whole state (10_state.md R13), and beside it the model's own two fields, which hold the inputs still to
come and the number of the current cycle (assumptions 1, 2, 15). -/
structure State where
  conf : Conf
  deser : Deser
  pwm : Pwm
  err : Err
  /-- The inputs of this and the coming cycles, this cycle's first; past the end every cycle is `Input.idle`. -/
  inputs : List Input
  /-- The number of this cycle, the argument of the free DOUT draw. -/
  cycle : Nat
  deriving DecidableEq, Repr

/-- No fault exists: "The block never stops stepping after an error" (60_exceptions.md R131), "The block never halts"
(70_reset_and_hazards.md R155). Errors are recorded in the state, not raised. -/
inductive Fault where
  deriving DecidableEq, Repr

/-- Why the model gives a step no next state. -/
inductive Refusal where
  /-- Raised by `exec` for an instruction without a meaning. Safe: the model stops. No arm of this model raises it. -/
  | notModelled (mnemonic : String)
  /-- Raised by a cycle without reset whose input asserts bus_wr and bus_rd together: "outside the admitted inputs; a
  model refuses it" (20_memory.md R40, 93 U3). Safe: the model stops where the spec gives no transition. -/
  | busWriteAndRead
  /-- Raised by `hostStep`, never by `step`: a move of the host outside the table of 20_memory.md R56, which a model does
  not give it (92 D38, 93 U18). Safe: the closed system stops where its host has no move. -/
  | hostMoveOutsideTable
  deriving DecidableEq, Repr

/-- RESET_STATE's configuration (70_reset_and_hazards.md R139): unconfigured, unlocked. -/
def Conf.reset : Conf :=
  { cfgExtra := 0, cfgTimeout := 0, cfgSckHalf := 0, cfgSlice := 0, locked := false }

/-- RESET_STATE's deserializer (70_reset_and_hazards.md R139): IDLE. -/
def Deser.reset : Deser :=
  { rdState := .idle, waitCnt := 0, halfCnt := 0, pulseCnt := 0, acc := 0, sample := 0, valid := false, nrdy := false }

/-- RESET_STATE's PWM generator (70_reset_and_hazards.md R139): STOP, nothing pending, last direction UNKNOWN. -/
def Pwm.reset : Pwm :=
  { actDir := .stop, actDuty := 0, sliceCnt := 0, tickCnt := 0, pendValid := false, pendDir := .stop, pendDuty := 0,
    lastDir := .unknown, stopCnt := 0 }

/-- RESET_STATE's error record (70_reset_and_hazards.md R139): no error. -/
def Err.reset : Err := { cmdErr := false, errCode := .none }

/-- RESET_STATE (70_reset_and_hazards.md R139), with no input placed and the cycle count at 0 (assumptions 1, 2, 3). -/
def State.reset : State :=
  { conf := .reset, deser := .reset, pwm := .reset, err := .reset, inputs := [], cycle := 0 }

end Sys2Proof.Machine
end

