-- ==== Sys2Proof/Machine/Ops.lean ====
section
/-! DEFINITION. The shared operations over the state: the inputs of the cycle, the field writes of the commands, error recording and rejection (60_exceptions.md R130, 10_state.md R36), and the PWM intake (41_pwm_generator.md R102 to R108). -/

namespace Sys2Proof.Machine

/-- What a command or a cycle answers. -/
abbrev Result := Host.Outcome State Fault Refusal

/-- The inputs sampled at this cycle (00_scope.md R7); the idle cycle where none is placed (assumption 1). -/
def State.input (s : State) : Input := s.inputs.headD Input.idle

/-- `dout(n)`, the synchronised DOUT of this cycle (40_adc_deserializer.md R80): the input's bit, or the free draw
(R93, assumption 2). -/
def State.dout (s : State) : Bool := s.input.dout.getD (Config.freeDout s.cycle)

/-! ### Field writes of the configuration and control commands -/

/-- `s'.cfg_extra <- n` (40_adc_deserializer.md R76). -/
def State.setCfgExtra (s : State) (n : BitVec 2) : State := { s with conf := { s.conf with cfgExtra := n } }

/-- `s'.cfg_timeout <- t` (40_adc_deserializer.md R77). -/
def State.setCfgTimeout (s : State) (t : BitVec 24) : State := { s with conf := { s.conf with cfgTimeout := t } }

/-- `s'.cfg_sck_half <- h` (40_adc_deserializer.md R78). -/
def State.setCfgSckHalf (s : State) (h : BitVec 8) : State := { s with conf := { s.conf with cfgSckHalf := h } }

/-- `s'.cfg_slice <- p` (41_pwm_generator.md R100). -/
def State.setCfgSlice (s : State) (p : BitVec 16) : State := { s with conf := { s.conf with cfgSlice := p } }

/-- `s'.locked <- 1` (42_control.md R123). -/
def State.setLocked (s : State) : State := { s with conf := { s.conf with locked := true } }

/-- `s'.cmd_err <- 0; s'.err_code <- 0`, which re-arms the record (42_control.md R124, 60_exceptions.md R135). -/
def State.clearErr (s : State) : State := { s with err := { cmdErr := false, errCode := .none } }

/-- Replaces the deserializer fields. -/
def State.setDeser (s : State) (d : Deser) : State := { s with deser := d }

/-- Replaces the PWM generator fields. -/
def State.setPwm (s : State) (p : Pwm) : State := { s with pwm := p }

/-! ### READ -/

/-- The field writes of an accepted READ (40_adc_deserializer.md R79); `sample` is not written. -/
def Deser.startRead (d : Deser) : Deser :=
  { d with rdState := .wait, waitCnt := 0, halfCnt := 0, pulseCnt := 0, acc := 0, valid := false, nrdy := false }

/-! ### APPLY -/

/-- `s'.last_dir <- d`: the two 2-bit encodings agree, STOP's and UNKNOWN's both being 0 (10_state.md R27, R30;
assumption 8). -/
def LastDir.ofDir : Dir → LastDir
  | .stop => .unknown
  | .fwd => .fwd
  | .bwd => .bwd

/-- `SetPend(d, D)` (41_pwm_generator.md R102). -/
def Pwm.setPend (p : Pwm) (d : Dir) (duty : BitVec 7) : Pwm :=
  { p with pendValid := true, pendDir := d, pendDuty := duty }

/-- `ClearPend()` (41_pwm_generator.md R102). -/
def Pwm.clearPend (p : Pwm) : Pwm := { p with pendValid := false, pendDir := .stop, pendDuty := 0 }

/-- Drive off, period counters at 0: the writes R107 and R108 share. -/
def Pwm.driveOff (p : Pwm) : Pwm := { p with actDir := .stop, actDuty := 0, sliceCnt := 0, tickCnt := 0 }

/-- The end of a drive is remembered: `last_dir <- act_dir; stop_cnt <- 0` (41_pwm_generator.md R107, R108). -/
def Pwm.markDriveEnd (p : Pwm) : Pwm := { p with lastDir := LastDir.ofDir p.actDir, stopCnt := 0 }

/-- `StopIntake(s)` (41_pwm_generator.md R108). -/
def Pwm.stopIntake (p : Pwm) : Pwm :=
  if p.actDir ≠ .stop then p.markDriveEnd.driveOff.clearPend else p.driveOff.clearPend

/-- `Reverse(s, d, D)` (41_pwm_generator.md R107). -/
def Pwm.reverse (p : Pwm) (d : Dir) (duty : BitVec 7) : Pwm := p.markDriveEnd.driveOff.setPend d duty

/-- `ApplyIntake(s, d, D)` (41_pwm_generator.md R102, with R103 to R108). -/
def Pwm.applyIntake (p : Pwm) (d : Dir) (duty : BitVec 7) : Pwm :=
  if d = .stop ∨ duty = 0#7 then p.stopIntake
  else if p.actDir = .stop then p.setPend d duty
  else if d = p.actDir ∧ duty = p.actDuty then p.clearPend
  else if d = p.actDir then p.setPend d duty
  else p.reverse d duty

/-! ### Rejection: this block's form of taking an exception (60_exceptions.md R130, R131, R135) -/

/-- `RecordError(s, code)`: the first error since reset or CLEAR is kept (60_exceptions.md R130). -/
def State.recordError (s : State) (code : ErrCode) : State :=
  if s.err.cmdErr = false then { s with err := { cmdErr := true, errCode := code } } else s

/-- A rejected APPLY records its error and acts as STOP (10_state.md R36, 41_pwm_generator.md R108). -/
def State.rejectApply (s : State) (code : ErrCode) : State :=
  (s.recordError code).setPwm (s.recordError code).pwm.stopIntake

/-- The end of a command other than APPLY: rejected with the code of its check, or else executed (10_state.md R36). -/
def checked (code : Option ErrCode) (s accepted : State) : Result :=
  match code with
  | some c => .next (s.recordError c)
  | none => .next accepted

end Sys2Proof.Machine
end

