-- ==== Sys2Proof/Machine/Operands.lean ====
section
/-! DEFINITION. The operand forms of the commands (30_encoding.md R61 to R67) and the checks of 30_encoding.md R70 that need the state: lock state, then operand values, then busy, then completeness. -/

namespace Sys2Proof.Machine

/-- The direction a DIR field names; 0b11 names none (30_encoding.md R67). -/
def direction : DirField → Option Dir
  | .stop => some .stop
  | .fwd => some .fwd
  | .bwd => some .bwd
  | .reserved => none

/-- The checks of a CFG command after its reserved bits: code 4 once locked, then code 3 for an illegal value
(30_encoding.md R70). -/
def configCheck (s : State) (legal : Bool) : Option ErrCode :=
  if s.conf.locked then some .configLocked else if legal then none else some .illegalValue

/-- The checks of LOCK: code 4 once locked, then code 7 with a field not configured (42_control.md R123). -/
def lockCheck (s : State) : Option ErrCode :=
  if s.conf.locked then some .configLocked
  else if s.conf.cfgExtra = 0#2 ∨ s.conf.cfgSckHalf = 0#8 ∨ s.conf.cfgSlice = 0#16 then some .configIncomplete
  else none

/-- The checks of READ: code 5 before the lock, then code 6 while a read is in progress (40_adc_deserializer.md R79). -/
def readCheck (s : State) : Option ErrCode :=
  if s.conf.locked = false then some .notLocked
  else if s.deser.rdState ≠ .idle then some .readBusy
  else none

/-- The checks of APPLY: code 5 before the lock, then code 3 for DIR = 0b11 or DUTY > 100, whatever DIR is
(30_encoding.md R66, R70); an accepted word's direction. -/
def applyCheck (s : State) (dir : DirField) (duty : BitVec 7) : Except ErrCode Dir :=
  if s.conf.locked = false then .error .notLocked
  else match direction dir with
    | none => .error .illegalValue
    | some d => if wfDuty duty then .ok d else .error .illegalValue

end Sys2Proof.Machine
end

