-- ==== Sys2Proof/Machine/Control.lean ====
section
/-! DEFINITION. The control commands: NOP, LOCK, CLEAR (42_control.md R122 to R124). -/

namespace Sys2Proof.Machine

/-- NOP: no field is written (42_control.md R122). -/
def execNop (s : State) : Result := .next s

/-- LOCK (42_control.md R123). -/
def execLock (s : State) : Result := checked (lockCheck s) s s.setLocked

/-- CLEAR: accepted in every state (42_control.md R124). -/
def execClear (s : State) : Result := .next s.clearErr

end Sys2Proof.Machine
end

