-- ==== Sys2Proof/Machine/Deserializer.lean ====
section
/-! DEFINITION. The commands of the deserializer: CFG_EXTRA, CFG_TIMEOUT, CFG_SCK, READ (40_adc_deserializer.md R76 to R79). -/

namespace Sys2Proof.Machine

/-- CFG_EXTRA n (40_adc_deserializer.md R76). -/
def execCfgExtra (n : BitVec 2) (s : State) : Result :=
  checked (configCheck s (wfExtra n)) s (s.setCfgExtra n)

/-- CFG_TIMEOUT t: no value of t is illegal (40_adc_deserializer.md R77). -/
def execCfgTimeout (t : BitVec 24) (s : State) : Result :=
  checked (configCheck s true) s (s.setCfgTimeout t)

/-- CFG_SCK h (40_adc_deserializer.md R78). -/
def execCfgSck (h : BitVec 8) (s : State) : Result :=
  checked (configCheck s (wfHalf h)) s (s.setCfgSckHalf h)

/-- READ: the start of a read transaction (40_adc_deserializer.md R79). -/
def execRead (s : State) : Result :=
  checked (readCheck s) s (s.setDeser s.deser.startRead)

end Sys2Proof.Machine
end

