-- ==== Sys2Proof/Machine/PwmGenerator.lean ====
section
/-! DEFINITION. The commands of the PWM generator: CFG_PWM, APPLY (41_pwm_generator.md R100, R102). -/

namespace Sys2Proof.Machine

/-- CFG_PWM p (41_pwm_generator.md R100). -/
def execCfgPwm (p : BitVec 16) (s : State) : Result :=
  checked (configCheck s (wfSlice p)) s (s.setCfgSlice p)

/-- APPLY d, D: the intake of 41_pwm_generator.md R102, or, rejected, the STOP of R108. -/
def execApply (dir : DirField) (duty : BitVec 7) (s : State) : Result :=
  match applyCheck s dir duty with
  | .error code => .next (s.rejectApply code)
  | .ok d => .next (s.setPwm (s.pwm.applyIntake d duty))

end Sys2Proof.Machine
end

