-- ==== Sys2Proof/Machine/Dispatch.lean ====
section
/-! DEFINITION. One arm per command: the command phase of a cycle that presents it (10_state.md R36), which checks it and then executes or rejects it. The engines' advance is the cycle's, not the command's (Machine/Cycle.lean). -/

namespace Sys2Proof.Machine

def exec (i : Instr) (s : State) : Host.Outcome State Fault Refusal :=
  match i with
  | .nop => Sys2Proof.Machine.execNop s
  | .cfgExtra n => Sys2Proof.Machine.execCfgExtra n s
  | .cfgTimeout t => Sys2Proof.Machine.execCfgTimeout t s
  | .cfgSck h => Sys2Proof.Machine.execCfgSck h s
  | .cfgPwm p => Sys2Proof.Machine.execCfgPwm p s
  | .lock => Sys2Proof.Machine.execLock s
  | .read => Sys2Proof.Machine.execRead s
  | .apply dir duty => Sys2Proof.Machine.execApply dir duty s
  | .clear => Sys2Proof.Machine.execClear s

end Sys2Proof.Machine
end

