-- ==== Sys2Proof/Machine/Engines.lean ====
section
/-! DEFINITION. The two engines: DeserAdvance (40_adc_deserializer.md R82 to R88) and PwmAdvance (41_pwm_generator.md R112). -/

namespace Sys2Proof.Machine

/-- The WAIT state's ready check, the ready test before the timeout test (40_adc_deserializer.md R83). -/
def Deser.advanceWait (c : Conf) (d : Deser) (b : Bool) : Deser :=
  if b = false then { d with rdState := .high, halfCnt := 0 }
  else if d.waitCnt = c.cfgTimeout then { d with rdState := .idle, nrdy := true }
  else { d with waitCnt := d.waitCnt + 1 }

/-- Whether a HIGH or LOW phase has cycles left: `half_cnt < cfg_sck_half - 1` (40_adc_deserializer.md R84, R86). The
spec's other case is `half_cnt = cfg_sck_half - 1`; R89 rules out every value above it (assumption 7). -/
def Deser.phaseGoesOn (c : Conf) (d : Deser) : Bool := d.halfCnt.toNat + 1 < c.cfgSckHalf.toNat

/-- `s.acc[22:0] ++ b` (40_adc_deserializer.md R85). -/
def shiftIn (acc : BitVec 24) (b : Bool) : BitVec 24 := acc.extractLsb' 0 23 ++ BitVec.ofBool b

/-- The HIGH state: R84, and in its last cycle the falling edge of R85. -/
def Deser.advanceHigh (c : Conf) (d : Deser) (b : Bool) : Deser :=
  if d.phaseGoesOn c then { d with halfCnt := d.halfCnt + 1 }
  else
    { d with
      rdState := .low, halfCnt := 0, acc := if d.pulseCnt < 24#5 then shiftIn d.acc b else d.acc,
      pulseCnt := d.pulseCnt + 1 }

/-- `24 + s.cfg_extra`, the pulses of a read (40_adc_deserializer.md R87). -/
def Conf.pulses (c : Conf) : Nat := 24 + c.cfgExtra.toNat

/-- `sext_32` (00_scope.md §5, 40_adc_deserializer.md R88). -/
def sext32 (v : BitVec 24) : Word := v.signExtend 32

/-- The LOW state: R86, and in its last cycle the next pulse of R87 or the completion of R88. -/
def Deser.advanceLow (c : Conf) (d : Deser) : Deser :=
  if d.phaseGoesOn c then { d with halfCnt := d.halfCnt + 1 }
  else if d.pulseCnt.toNat < c.pulses then { d with rdState := .high, halfCnt := 0 }
  else { d with rdState := .idle, sample := sext32 d.acc, valid := true }

/-- `DeserAdvance(s, b)` (40_adc_deserializer.md R82); not applied in IDLE, where the fields stay. -/
def Deser.advance (c : Conf) (d : Deser) (b : Bool) : Deser :=
  match d.rdState with
  | .idle => d
  | .wait => d.advanceWait c b
  | .high => d.advanceHigh c b
  | .low => d.advanceLow c

/-- PERIOD = 100 × cfg_slice, in clk cycles (41_pwm_generator.md R111). -/
def Conf.period (c : Conf) : Nat := 100 * c.cfgSlice.toNat

/-- `sat23` (00_scope.md §5). -/
def sat23 (n : Nat) : BitVec 23 := BitVec.ofNat 23 (min n (2 ^ 23 - 1))

/-- Whether a pending drive may start: no change of direction, or the stop hold has elapsed (41_pwm_generator.md R112). -/
def Pwm.mayStart (c : Conf) (p : Pwm) : Bool :=
  p.pendValid && (LastDir.ofDir p.pendDir == p.lastDir || decide (c.period ≤ p.stopCnt.toNat))

/-- PwmAdvance in STOP: a drive starts, or one more STOP cycle is counted (41_pwm_generator.md R112). -/
def Pwm.advanceStop (c : Conf) (p : Pwm) : Pwm :=
  if p.mayStart c then
    Pwm.clearPend
      { p with
        actDir := p.pendDir, actDuty := p.pendDuty, sliceCnt := 0, tickCnt := 0, lastDir := LastDir.ofDir p.pendDir }
  else { p with stopCnt := sat23 (p.stopCnt.toNat + 1) }

/-- The period boundary: a pending duty is adopted (41_pwm_generator.md R112). -/
def Pwm.boundary (p : Pwm) : Pwm :=
  if p.pendValid then Pwm.clearPend { p with sliceCnt := 0, actDuty := p.pendDuty } else { p with sliceCnt := 0 }

/-- PwmAdvance while driving (41_pwm_generator.md R112). -/
def Pwm.advanceDrive (c : Conf) (p : Pwm) : Pwm :=
  if p.tickCnt.toNat + 1 < c.cfgSlice.toNat then { p with tickCnt := p.tickCnt + 1 }
  else if p.sliceCnt < 99#7 then { p with tickCnt := 0, sliceCnt := p.sliceCnt + 1 }
  else Pwm.boundary { p with tickCnt := 0 }

/-- `PwmAdvance(t)` (41_pwm_generator.md R112). -/
def Pwm.advance (c : Conf) (p : Pwm) : Pwm :=
  if p.actDir = .stop then p.advanceStop c else p.advanceDrive c

end Sys2Proof.Machine
end

