-- ==== Sys2Proof/Machine/Flags.lean ====
section
/-! DEFINITION. The STATUS bits and the layouts of the host-visible registers, each computed from the state (10_state.md R34, R35), and the binary encodings of the enumerated fields (R19, R27, R30, 60_exceptions.md R126). -/

namespace Sys2Proof.Machine

/-- act_dir, pend_dir: 00 STOP, 01 FWD, 10 BWD (10_state.md R27, R29). -/
def Dir.toBits : Dir → BitVec 2
  | .stop => 0#2
  | .fwd => 1#2
  | .bwd => 2#2

/-- last_dir: 00 UNKNOWN, 01 FWD, 10 BWD (10_state.md R30). -/
def LastDir.toBits : LastDir → BitVec 2
  | .unknown => 0#2
  | .fwd => 1#2
  | .bwd => 2#2

/-- rd_state: 0 IDLE, 1 WAIT, 2 HIGH, 3 LOW (10_state.md R19). -/
def RdState.toBits : RdState → BitVec 2
  | .idle => 0#2
  | .wait => 1#2
  | .high => 2#2
  | .low => 3#2

/-- The ERR_CODE values (60_exceptions.md R126). -/
def ErrCode.toBits : ErrCode → BitVec 4
  | .none => 0#4
  | .reservedOpcode => 1#4
  | .reservedBits => 2#4
  | .illegalValue => 3#4
  | .configLocked => 4#4
  | .notLocked => 5#4
  | .readBusy => 6#4
  | .configIncomplete => 7#4

/-- STATUS.BUSY: `rd_state ≠ IDLE` (10_state.md R34). -/
def State.busy (s : State) : Bool := s.deser.rdState != .idle

/-- STATUS (10_state.md R34), bit 31 first. -/
def State.statusReg (s : State) : Word :=
  0#6 ++ s.pwm.lastDir.toBits ++ 0#1 ++ s.pwm.actDuty ++ 0#1 ++ BitVec.ofBool s.pwm.pendValid ++ s.pwm.actDir.toBits ++
    s.err.errCode.toBits ++ 0#3 ++ BitVec.ofBool s.err.cmdErr ++ BitVec.ofBool s.conf.locked ++
    BitVec.ofBool s.deser.nrdy ++ BitVec.ofBool s.deser.valid ++ BitVec.ofBool s.busy

/-- CFG_ADC (10_state.md R35), bit 31 first. -/
def State.cfgAdcReg (s : State) : Word := 0#16 ++ s.conf.cfgSckHalf ++ 0#6 ++ s.conf.cfgExtra

/-- CFG_TIMEOUT (10_state.md R35), bit 31 first. -/
def State.cfgTimeoutReg (s : State) : Word := 0#8 ++ s.conf.cfgTimeout

/-- CFG_PWM (10_state.md R35), bit 31 first. -/
def State.cfgPwmReg (s : State) : Word := 0#16 ++ s.conf.cfgSlice

/-- PEND (10_state.md R35), bit 31 first. -/
def State.pendReg (s : State) : Word :=
  BitVec.ofBool s.pwm.pendValid ++ 0#22 ++ s.pwm.pendDir.toBits ++ s.pwm.pendDuty

/-- DESER (10_state.md R35), bit 31 first. -/
def State.deserReg (s : State) : Word := 0#25 ++ s.deser.pulseCnt ++ s.deser.rdState.toBits

end Sys2Proof.Machine
end

