-- ==== Sys2Proof/Machine/HostPort.lean ====
section
/-! DEFINITION. The host register port (20_memory.md R40 to R45) and the output pins (10_state.md R33). -/

namespace Sys2Proof.Machine

/-- `BusRead(off)`: the register at an aligned offset, 0x00000000 for CMD and for a misaligned offset
(20_memory.md R41, R42, R44). -/
def State.readRegister (s : State) (off : BitVec 5) : Word :=
  match off with
  | 0x04#5 => s.statusReg
  | 0x08#5 => s.deser.sample
  | 0x0C#5 => s.cfgAdcReg
  | 0x10#5 => s.cfgTimeoutReg
  | 0x14#5 => s.cfgPwmReg
  | 0x18#5 => s.pendReg
  | 0x1C#5 => s.deserReg
  | _ => 0#32

/-- `bus_rdata` of this cycle: the register read, computed from this state (20_memory.md R42). In a cycle whose input
has no read, or one the block ignores or refuses, the spec states no value and there is none (assumption 9). -/
def State.busRdata (s : State) : Option Word :=
  if s.input.busRd && !s.input.busWr && !s.input.rst then some (s.readRegister s.input.busAddr) else none

/-- `Decode(bus)` up to the word: the command presented is the word written to offset 0x00; every other access presents
none (30_encoding.md R69, 20_memory.md R43, R44). -/
def Input.command (i : Input) : Option Word :=
  if i.busWr && i.busAddr == 0x00#5 then some i.busWdata else none

/-- An input outside the admitted ones: both strobes at once (20_memory.md R40, 93 U3). -/
def Input.bothStrobes (i : Input) : Bool := i.busWr && i.busRd

/-- SCK, high exactly in HIGH (10_state.md R33, 40_adc_deserializer.md R81). -/
def State.sck (s : State) : Bool := s.deser.rdState == .high

/-- The PWM pattern: high in slices 0 to D-1 (10_state.md R33, 41_pwm_generator.md R101). -/
def State.pwmOn (s : State) : Bool := s.pwm.sliceCnt < s.pwm.actDuty

/-- DIR_A carries the BWD pattern (10_state.md R33). -/
def State.dirA (s : State) : Bool := s.pwm.actDir == .bwd && s.pwmOn

/-- DIR_B carries the FWD pattern (10_state.md R33). -/
def State.dirB (s : State) : Bool := s.pwm.actDir == .fwd && s.pwmOn

end Sys2Proof.Machine
end

