-- ==== Sys2Proof/Machine/Cycle.lean ====
section
/-! DEFINITION. The cycle step of 10_state.md R36: reset, then the command phase, then the engine phase. -/

namespace Sys2Proof.Machine

/-- A word that decodes to no command is rejected with code 1 or 2; one with APPLY's opcode also acts as STOP
(10_state.md R36, 30_encoding.md R70, R71, 41_pwm_generator.md R108). -/
def rejectWord (e : DecodeError) (s : State) : State :=
  match e with
  | .reservedOpcode => s.recordError .reservedOpcode
  | .reservedBits op => if op = .apply then s.rejectApply .reservedBits else s.recordError .reservedBits

/-- The command phase for the word `w` written to CMD (10_state.md R36 (1)). -/
def commandPhase (w : Word) (s : State) : Result :=
  match decode w with
  | .ok i => exec i s
  | .error e => .next (rejectWord e s)

/-- The engine phase (10_state.md R36 (2)): the deserializer advances from the pre-command state `s`, the PWM generator
from the post-command state `t`; this cycle's input is consumed. -/
def enginePhase (s t : State) : State :=
  { t with
    deser := if s.deser.rdState ≠ .idle then s.deser.advance s.conf s.dout else t.deser
    pwm := t.pwm.advance t.conf
    inputs := s.inputs.tail
    cycle := s.cycle + 1 }

/-- The state after a cycle with rst = 1 (70_reset_and_hazards.md R139); the inputs still to come are the
environment's and stay (assumption 15). -/
def resetCycle (s : State) : State := { State.reset with inputs := s.inputs.tail, cycle := s.cycle + 1 }

/-- The engine phase after a command phase that answered a next state. -/
def thenEngines (s : State) (r : Result) : Result :=
  match r with
  | .next t => .next (enginePhase s t)
  | .fault f => .fault f
  | .refused x => .refused x

/-- `Step(s, rst, bus, dout)` with this cycle's inputs (10_state.md R36); rst overrides everything (60_exceptions.md
R132, assumption 4); both strobes at once are refused (20_memory.md R40, assumption 5). -/
def cycleStep (s : State) : Result :=
  if s.input.rst then .next (resetCycle s)
  else if s.input.bothStrobes then .refused .busWriteAndRead
  else
    match s.input.command with
    | some w => thenEngines s (commandPhase w s)
    | none => .next (enginePhase s s)

/-- This cycle's input is a write of the word `w` to the offset `off`, without reset; its DOUT and every later input
stay. -/
def State.presentWrite (s : State) (off : BitVec 5) (w : Word) : State :=
  { s with
    inputs := { s.input with rst := false, busWr := true, busRd := false, busAddr := off, busWdata := w } :: s.inputs.tail }

/-- This cycle's input is the command word `w`, written to CMD (20_memory.md R43). -/
def State.presentWord (s : State) (w : Word) : State := s.presentWrite 0x00#5 w

end Sys2Proof.Machine
end

