-- ==== Sys2Proof/Machine/Step.lean ====
section
/-! DEFINITION. One step of the machine: one clk cycle (00_scope.md R7, 10_state.md R36). -/

namespace Sys2Proof.Machine

/-- One clk cycle (10_state.md R36). -/
def step (s : State) : Host.Outcome State Fault Refusal := cycleStep s

/-- `s` with the command word of the table's numbering written to CMD in this cycle (assumption 3): the block fetches
nothing (20_memory.md R54), so this is where the next step takes its command from. -/
def State.withFetchWord (s : State) (nbits w : Nat) : State := s.presentWord (tableWord nbits w)

end Sys2Proof.Machine
end

