-- ==== Sys2Proof/Machine/HostAgent.lean ====
section
/-! DEFINITION. The host as an agent (20_memory.md R56, 92 D38): which inputs are its moves, and the cycle of the block closed by a host that makes no other. -/

namespace Sys2Proof.Machine

/-- The commands the host sends in this state, by the table of 20_memory.md R56: CFG words of any field value while
unlocked, LOCK, READ only after the lock and while STATUS.BUSY = 0, `APPLY d, D` only after the lock, CLEAR. The table
has no NOP (assumption 18). -/
def State.hostSends (s : State) : Instr → Bool
  | .nop => false
  | .cfgExtra _ => !s.conf.locked
  | .cfgTimeout _ => !s.conf.locked
  | .cfgSck _ => !s.conf.locked
  | .cfgPwm _ => !s.conf.locked
  | .lock => true
  | .read => s.conf.locked && !s.busy
  | .apply dir duty => s.conf.locked && (Instr.apply dir duty).wellFormed
  | .clear => true

/-- The word a host writes to CMD is that of a command it sends in this state (20_memory.md R56). -/
def State.hostWrites (s : State) (w : Word) : Bool :=
  match decode w with
  | .ok i => s.hostSends i
  | .error _ => false

/-- The registers the table's column "block gives back" names: STATUS, SAMPLE, the CFG readback registers and PEND
(20_memory.md R56; assumption 18). -/
def hostReads (off : BitVec 5) : Bool := off ∈ [0x04#5, 0x08#5, 0x0C#5, 0x10#5, 0x14#5, 0x18#5]

/-- This cycle's input is a move of the table of 20_memory.md R56: never both strobes (R40), else a reset, a write of a
command it sends, a read of a register the table names, or no access. -/
def State.hostMove (s : State) : Bool :=
  if s.input.bothStrobes then false
  else if s.input.rst then true
  else if s.input.busWr then
    match s.input.command with
    | some w => s.hostWrites w
    | none => false
  else if s.input.busRd then hostReads s.input.busAddr
  else true

/-- A cycle of the closed system of 20_memory.md R56 and 92 D38: the block's step on a move of the table, and no
transition on any other (93 U18). -/
def hostStep (s : State) : Result := if s.hostMove then step s else .refused .hostMoveOutsideTable

/-- The state `k` cycles later in a run in which the host makes only moves of the table: the runs a claim speaks of by
20_memory.md R56. -/
def State.hostAfter : Nat → State → Option State
  | 0, s => some s
  | k + 1, s =>
    match hostStep s with
    | .next t => State.hostAfter k t
    | _ => none

end Sys2Proof.Machine
end

