-- ==== Sys2Proof/Safety.lean ====
section
/-! DEFINITION. What a safe state and a safe run of the block are: the invariants of 10_state.md R37 with those the other rules add, runs of cycles and their inputs, the check of 30_encoding.md R70 on a raw word, and the duties the spec leaves to the ADC and the host (R93, R150 to R152). -/

namespace Sys2Proof.Machine

/-! ### Runs -/

/-- The state `k` cycles later, if no cycle is refused (70_reset_and_hazards.md R155: a run is a finite prefix). -/
def State.after : Nat → State → Option State
  | 0, s => some s
  | k + 1, s =>
    match step s with
    | .next t => State.after k t
    | _ => none

/-- The input of the cycle `k` cycles later. -/
def State.inputAt (s : State) (k : Nat) : Input := (s.inputs[k]?).getD Input.idle

/-- `dout` of the cycle `k` cycles later. -/
def State.doutAt (s : State) (k : Nat) : Bool := (s.inputAt k).dout.getD (Config.freeDout (s.cycle + k))

/-- An input without reset and without the access the model refuses. -/
abbrev Input.admitted (i : Input) : Prop := i.rst = false ∧ i.bothStrobes = false

/-- For the next `n` cycles no reset and no refused access occurs. -/
def State.Undisturbed (s : State) (n : Nat) : Prop := ∀ k, k < n → (s.inputAt k).admitted

/-- From `first` on, up to `n` cycles later, no command is presented. -/
def State.NoCommand (s : State) (first n : Nat) : Prop := ∀ k, first ≤ k → k < n → (s.inputAt k).command = none

/-- The state with this cycle's bus access taken away and no reset; DOUT and every later input stay. -/
def State.noAccess (s : State) : State :=
  { s with inputs := { s.input with rst := false, busWr := false, busRd := false } :: s.inputs.tail }

/-- The state with a read of the offset `off` in this cycle, without reset. -/
def State.presentRead (s : State) (off : BitVec 5) : State :=
  { s with
    inputs := { s.input with rst := false, busWr := false, busRd := true, busAddr := off } :: s.inputs.tail }

/-! ### The check of a raw word -/

/-- RESERVED_MASK by opcode number (30_encoding.md R59, the table's column). -/
def reservedMaskOf (op : Nat) : Nat :=
  match op with
  | 0 => 0x0FFFFFFF
  | 1 => 0x0FFFFFFC
  | 2 => 0x0F000000
  | 3 => 0x0FFFFF00
  | 4 => 0x0FFF0000
  | 5 => 0x0FFFFFFF
  | 6 => 0x0FFFFFFF
  | 7 => 0x0FFFFE00
  | 8 => 0x0FFFFFFF
  | _ => 0

/-- `Check(s, c)` of 30_encoding.md R70 on the raw word, line by line: 0 accepts, else the ERR_CODE. It is written
from the rule's own pseudocode and not used by the machine. -/
def checkWord (s : State) (w : Word) : Nat :=
  let op := w.toNat / 2 ^ 28
  if 9 ≤ op then 1
  else if w.toNat % 2 ^ 28 &&& reservedMaskOf op ≠ 0 then 2
  else if op ∈ [1, 2, 3, 4, 5] ∧ s.conf.locked = true then 4
  else if op ∈ [6, 7] ∧ s.conf.locked = false then 5
  else if op = 1 ∧ w.toNat % 2 ^ 2 = 0 then 3
  else if op = 3 ∧ w.toNat % 2 ^ 8 = 0 then 3
  else if op = 4 ∧ w.toNat % 2 ^ 16 = 0 then 3
  else if op = 7 ∧ (w.toNat / 2 ^ 7 % 2 ^ 2 = 3 ∨ 100 < w.toNat % 2 ^ 7) then 3
  else if op = 6 ∧ s.deser.rdState ≠ .idle then 6
  else if op = 5 ∧ (s.conf.cfgExtra = 0#2 ∨ s.conf.cfgSckHalf = 0#8 ∨ s.conf.cfgSlice = 0#16) then 7
  else 0

/-! ### Invariants -/

/-- 10_state.md R37 item 1. -/
abbrev State.DutyOk (s : State) : Prop :=
  (s.pwm.actDir = .stop ↔ s.pwm.actDuty = 0#7) ∧ s.pwm.actDuty.toNat ≤ 100 ∧ s.pwm.sliceCnt.toNat ≤ 99

/-- 10_state.md R37 item 2: the two direction lines are never high together. -/
abbrev State.NotBothHigh (s : State) : Prop := ¬(s.dirA = true ∧ s.dirB = true)

/-- 10_state.md R37 item 3. -/
abbrev State.PendOk (s : State) : Prop :=
  s.pwm.pendValid = true → s.pwm.pendDir ≠ .stop ∧ 1 ≤ s.pwm.pendDuty.toNat ∧ s.pwm.pendDuty.toNat ≤ 100

/-- 10_state.md R37 item 4. -/
abbrev State.UnlockedOk (s : State) : Prop :=
  s.conf.locked = false → s.pwm.actDir = .stop ∧ s.pwm.pendValid = false ∧ s.deser.rdState = .idle

/-- 10_state.md R37 item 5. -/
abbrev State.BusyLocked (s : State) : Prop := s.deser.rdState ≠ .idle → s.conf.locked = true

/-- 10_state.md R37 item 6. -/
abbrev State.ErrOk (s : State) : Prop := s.err.cmdErr = false ↔ s.err.errCode = .none

/-- 10_state.md R37 item 7. -/
abbrev State.SampleOk (s : State) : Prop :=
  s.deser.sample.extractLsb' 23 9 = 0#9 ∨ s.deser.sample.extractLsb' 23 9 = 0x1FF#9

/-- The seven items of 10_state.md R37. -/
structure State.SevenInvariants (s : State) : Prop where
  dutyOk : s.DutyOk
  notBothHigh : s.NotBothHigh
  pendOk : s.PendOk
  unlockedOk : s.UnlockedOk
  busyLocked : s.BusyLocked
  errOk : s.ErrOk
  sampleOk : s.SampleOk

/-- The PWM counters and the pending command's rest values: "`act_dir = STOP` implies both are 0" (10_state.md R28),
`tick_cnt` in 0 to `cfg_slice - 1` (R28), and nothing pending means STOP and 0 (R29). -/
abbrev State.PwmCountersOk (s : State) : Prop :=
  (s.pwm.actDir = .stop → s.pwm.sliceCnt = 0#7 ∧ s.pwm.tickCnt = 0#16) ∧
    (s.pwm.actDir ≠ .stop → s.pwm.tickCnt.toNat < s.conf.cfgSlice.toNat) ∧
      (s.pwm.pendValid = false → s.pwm.pendDir = .stop ∧ s.pwm.pendDuty = 0#7)

/-- While a drive is active it is the last direction driven (10_state.md R30), and a pending command has its direction
(41_pwm_generator.md R112). -/
abbrev State.DriveOk (s : State) : Prop :=
  s.pwm.actDir ≠ .stop →
    s.pwm.lastDir = LastDir.ofDir s.pwm.actDir ∧ (s.pwm.pendValid = true → s.pwm.pendDir = s.pwm.actDir)

/-- LOCK checked the configuration (42_control.md R123, 40_adc_deserializer.md R89). -/
abbrev State.LockedConfOk (s : State) : Prop :=
  s.conf.locked = true → s.conf.cfgExtra ≠ 0#2 ∧ s.conf.cfgSckHalf ≠ 0#8 ∧ s.conf.cfgSlice ≠ 0#16

/-- The read counters stay in their ranges (10_state.md R20 to R22, 40_adc_deserializer.md R89). -/
abbrev State.ReadCountersOk (s : State) : Prop :=
  (s.conf.locked = false → s.deser.halfCnt = 0#8) ∧
    (s.conf.locked = true → s.deser.halfCnt.toNat < s.conf.cfgSckHalf.toNat) ∧
      (s.deser.rdState = .wait → s.deser.waitCnt.toNat ≤ s.conf.cfgTimeout.toNat ∧ s.deser.pulseCnt = 0#5) ∧
        (s.deser.rdState = .high → s.deser.pulseCnt.toNat < s.conf.pulses) ∧
          (s.deser.rdState = .low → 1 ≤ s.deser.pulseCnt.toNat ∧ s.deser.pulseCnt.toNat ≤ s.conf.pulses) ∧
            s.deser.pulseCnt.toNat ≤ 27

/-- While a read is in progress it has no outcome yet, and an outcome is one of the two (10_state.md R25, R26,
40_adc_deserializer.md R79). -/
abbrev State.OutcomeOk (s : State) : Prop :=
  (s.deser.rdState ≠ .idle → s.deser.valid = false ∧ s.deser.nrdy = false) ∧
    ¬(s.deser.valid = true ∧ s.deser.nrdy = true)

/-- The invariant of the machine: R37 and what makes it inductive. -/
structure State.Inv (s : State) : Prop extends s.SevenInvariants where
  pwmCountersOk : s.PwmCountersOk
  driveOk : s.DriveOk
  lockedConfOk : s.LockedConfOk
  readCountersOk : s.ReadCountersOk
  outcomeOk : s.OutcomeOk

/-- The last cycle of a PWM period: the next step is the period boundary (41_pwm_generator.md R112, 00_scope.md §6). -/
abbrev State.atBoundary (s : State) : Prop :=
  ¬s.pwm.tickCnt.toNat + 1 < s.conf.cfgSlice.toNat ∧ ¬s.pwm.sliceCnt < 99#7

/-- The line the active direction enables (30_encoding.md R67): DIR_B for FWD, DIR_A for BWD, none in STOP. -/
def State.enabledLine (s : State) : Bool :=
  match s.pwm.actDir with
  | .stop => false
  | .fwd => s.dirB
  | .bwd => s.dirA

/-- Whether the enabled line is high `k` cycles later. -/
def State.lineHighAt (s : State) (k : Nat) : Bool :=
  match s.after k with
  | some u => u.enabledLine
  | none => false

/-- Two inputs with the same reset and bus signals; only DOUT may differ. -/
abbrev Input.sameBus (i j : Input) : Prop :=
  i.rst = j.rst ∧ i.busWr = j.busWr ∧ i.busRd = j.busRd ∧ i.busAddr = j.busAddr ∧ i.busWdata = j.busWdata

/-! ### The ADC's side of a read (40_adc_deserializer.md R93) -/

/-- Premise (a) for a read whose first ready check is this cycle's: `dout` is 1 at the first `w` checks and 0 at the
next. -/
abbrev State.ReadyAfter (s : State) (w : Nat) : Prop := (∀ k, k < w → s.doutAt k = true) ∧ s.doutAt w = false

/-- Premise (b): the synchronised `dout` at the capture cycle of data pulse `k` (40_adc_deserializer.md R90: w + h + 2hk
cycles after the first ready check) is bit 23 - k of the ADC's result. -/
abbrev State.AdcSends (s : State) (w : Nat) (raw : BitVec 24) : Prop :=
  ∀ k, k < 24 →
    s.doutAt (w + s.conf.cfgSckHalf.toNat + 2 * s.conf.cfgSckHalf.toNat * k) = raw.getLsbD (23 - k)

/-! ### The host's duties, which the block does not check -/

/-- SAMPLE is the result of the most recent READ: the host polls for this before it uses SAMPLE (20_memory.md R56,
70_reset_and_hazards.md R146). -/
abbrev State.sampleReady (s : State) : Prop := s.busy = false ∧ s.deser.valid = true

/-- The host may hand control back: an APPLY STOP, or an equal, is in effect (20_memory.md R56, 70_reset_and_hazards.md
R148). -/
abbrev State.hostMayEnd (s : State) : Prop := s.pwm.actDir = .stop ∧ s.pwm.pendValid = false

/-- 70_reset_and_hazards.md R150: the captured bit is the one the ADC put out after this pulse's rising edge. -/
def sckHalfLongEnough (p : Config.Platform) (c : Conf) : Prop :=
  ((Config.syncLat : Rat) + 1) * p.tClk + p.tValid ≤ (c.cfgSckHalf.toNat : Rat) * p.tClk

/-- 70_reset_and_hazards.md R151: SCK is never high longer than the ADC allows. -/
def sckHalfShortEnough (p : Config.Platform) (c : Conf) : Prop := (c.cfgSckHalf.toNat : Rat) * p.tClk < p.tSckMax

/-- 70_reset_and_hazards.md R152: the ready checks cover the ADC's conversion period. -/
def timeoutLongEnough (p : Config.Platform) (c : Conf) : Prop :=
  p.tConv ≤ ((c.cfgTimeout.toNat : Rat) + 1) * p.tClk

end Sys2Proof.Machine
end

