-- ==== Sys2Proof/Certificates/Slice0/Obligations.lean ====
section
/-! DEFINITION. The statements for the provers. -/

open Sys2Proof Sys2Proof.Machine

/-! ### Encoding -/

/-- Decoding the word of a command gives the command back, for every command and every value of its fields
(30_encoding.md R59 to R67 and the "Encoding" lines of R76 to R79, R100, R102). -/
def Obligations.DecodeOfEncodeIsIdentity : Prop := ∀ i : Instr, decode (encode i) = .ok i

/-- Each word has at most one meaning: a word that decodes to a command is that command's word (30_encoding.md R68). -/
def Obligations.EncodeOfDecodeIsIdentity : Prop := ∀ (w : Word) (i : Instr), decode w = .ok i → encode i = w

/-- 20_memory.md R46: byte k of a word is bits [8k+7:8k], and a command read from those bytes is the word's. -/
def Obligations.BridgeBytesDecodeLikeTheWord : Prop :=
  ∀ (w : Word) (rest : List Byte),
    decodeBytes (wordToBytes w ++ rest) = some (decode w, rest) ∧
      ∀ k j, k < 4 → j < 8 → ((wordToBytes w)[k]?.getD 0).getLsbD j = w.getLsbD (8 * k + j)

/-- The encoding examples of 30_encoding.md §5, and one word of each remaining command. -/
def Obligations.SpecWordsDecode : Prop :=
  decode 0x7000009E#32 = .ok (.apply .fwd 30) ∧ decode 0x700000B2#32 = .ok (.apply .fwd 50) ∧
    decode 0x700000D0#32 = .ok (.apply .fwd 80) ∧ decode 0x700000E4#32 = .ok (.apply .fwd 100) ∧
    decode 0x70000164#32 = .ok (.apply .bwd 100) ∧ decode 0x10000001#32 = .ok (.cfgExtra 1) ∧
    decode 0x20000003#32 = .ok (.cfgTimeout 3) ∧ decode 0x30000001#32 = .ok (.cfgSck 1) ∧
    decode 0x40000001#32 = .ok (.cfgPwm 1) ∧ decode 0x70000000#32 = .ok (.apply .stop 0) ∧
    decode 0x00000000#32 = .ok .nop ∧ decode 0x50000000#32 = .ok .lock ∧ decode 0x60000000#32 = .ok .read ∧
    decode 0x80000000#32 = .ok .clear

/-- 30_encoding.md R60: "NOP, LOCK, READ and CLEAR have no fields: `w[27:0]` must be 0. Their words are exactly
0x00000000, 0x50000000, 0x60000000 and 0x80000000." -/
def Obligations.FieldlessWordsAreExact : Prop :=
  ∀ w : Word,
    (decode w = .ok .nop ↔ w = 0x00000000#32) ∧ (decode w = .ok .lock ↔ w = 0x50000000#32) ∧
      (decode w = .ok .read ↔ w = 0x60000000#32) ∧ (decode w = .ok .clear ↔ w = 0x80000000#32)

/-- 30_encoding.md R71: opcodes 0x9 to 0xF are rejected with code 1 and have no other effect, no word but 0x00000000
is a NOP, and a NOP-opcode word with nonzero operand bits is rejected with code 2. -/
def Obligations.ReservedWordsAreRejected : Prop :=
  ∀ (w : Word) (s : State),
    (0x9#4 ≤ w.extractLsb' 28 4 → commandPhase w s = .next (s.recordError .reservedOpcode)) ∧
      (decode w = .ok .nop → w = 0x00000000#32) ∧
      (w.extractLsb' 28 4 = 0x0#4 → w ≠ 0#32 → commandPhase w s = .next (s.recordError .reservedBits))

/-- 30_encoding.md R70: the machine rejects a word exactly when the rule's Check does, with the code of the first check
that fails in the rule's order; a rejection records the code, and one of opcode 0x7 also stops the drive; an accepted
word is a command that runs, and records no error. `checkWord` is the rule's pseudocode on the raw word. -/
def Obligations.CheckRunsInSpecOrder : Prop :=
  ∀ (s : State) (w : Word),
    (checkWord s w ≠ 0 →
      ∃ c : ErrCode,
        c.toBits.toNat = checkWord s w ∧
          commandPhase w s =
            .next (if w.extractLsb' 28 4 = 0x7#4 then s.rejectApply c else s.recordError c)) ∧
      (checkWord s w = 0 →
        ∃ i t, decode w = .ok i ∧ exec i s = .next t ∧ commandPhase w s = .next t ∧ (i ≠ .clear → t.err = s.err))

/-! ### Steps -/

/-- 10_state.md R36: with a command word that decodes, the step is the command's `exec` and then the engine phase: the
deserializer advances from the state before the command unless it is IDLE, the PWM generator from the state after it.
With no command the engines advance alone. (`inputs` and `cycle` are the model's own, log entries 1 and 2: each step
consumes one input.) -/
def Obligations.StepRunsDecodedCommand : Prop :=
  ∀ (s : State), s.input.admitted →
    (∀ w i t, s.input.command = some w → decode w = .ok i → exec i s = .next t →
      step s =
        .next
          { t with
            deser := if s.deser.rdState = .idle then t.deser else s.deser.advance s.conf s.dout
            pwm := t.pwm.advance t.conf
            inputs := s.inputs.tail
            cycle := s.cycle + 1 }) ∧
      (s.input.command = none →
        step s =
          .next
            { s with
              deser := if s.deser.rdState = .idle then s.deser else s.deser.advance s.conf s.dout
              pwm := s.pwm.advance s.conf
              inputs := s.inputs.tail
              cycle := s.cycle + 1 })

/-- 60_exceptions.md R131, 70_reset_and_hazards.md R155: the block never stops stepping, in every cycle without both
strobes. That a cycle with rst = 1 answers even with both strobes asserted is the model's own reading of 60_exceptions.md
R132 and 70_reset_and_hazards.md R139 against 20_memory.md R40 (log entry 4, DEDUCED, unsafe). -/
def Obligations.StepAlwaysAnswers : Prop :=
  ∀ s : State, s.input.rst = true ∨ s.input.bothStrobes = false → ∃ t, step s = .next t

/-- 20_memory.md R40: "`bus_wr = bus_rd = 1` in one cycle is outside the admitted inputs; a model refuses it". And the
system closed by the host of R56 (92 D38, 93 U18), `hostStep`, has the moves of R56's table and no other: it runs the
block's step on a CFG word while unlocked, LOCK, CLEAR, READ after the lock and while not busy, a legal APPLY after the
lock, a read of a register the table names, a cycle without access, and a reset; it refuses by name both strobes, a
write elsewhere than CMD, a word that is no command, NOP's word, a CFG word after the lock, READ and APPLY before it,
READ while busy, an APPLY with an illegal operand, and a read of another offset. Every run of it is a run of the block.
(Where the table leaves a word or a register unnamed, and that `step` itself runs such moves, is log entry 18.) -/
def Obligations.BothStrobesAreRefused : Prop :=
  ∀ s : State,
    (s.input.rst = false → s.input.busWr = true → s.input.busRd = true → step s = .refused .busWriteAndRead) ∧
      (∀ i : Instr,
        (i.opcode ∈ [Opcode.cfgExtra, .cfgTimeout, .cfgSck, .cfgPwm] ∧ s.conf.locked = false) ∨ i = .lock ∨
            i = .clear ∨ (i = .read ∧ s.conf.locked = true ∧ s.deser.rdState = .idle) ∨
            (∃ dir duty, i = .apply dir duty ∧ s.conf.locked = true ∧ dir ≠ .reserved ∧ duty.toNat ≤ 100) →
          ∃ t, step (s.presentWord (encode i)) = .next t ∧ hostStep (s.presentWord (encode i)) = .next t) ∧
      (∀ off : BitVec 5, off ∈ [0x04#5, 0x08#5, 0x0C#5, 0x10#5, 0x14#5, 0x18#5] →
        ∃ t, step (s.presentRead off) = .next t ∧ hostStep (s.presentRead off) = .next t) ∧
      (∃ t, step s.noAccess = .next t ∧ hostStep s.noAccess = .next t) ∧
      (s.input.rst = true → s.input.bothStrobes = false → ∃ t, step s = .next t ∧ hostStep s = .next t) ∧
      (s.input.busWr = true → s.input.busRd = true → hostStep s = .refused .hostMoveOutsideTable) ∧
      (∀ off w, off ≠ 0x00#5 → hostStep (s.presentWrite off w) = .refused .hostMoveOutsideTable) ∧
      (∀ w e, decode w = .error e → hostStep (s.presentWord w) = .refused .hostMoveOutsideTable) ∧
      (∀ i : Instr,
        i = .nop ∨
            (i.opcode ∈ [Opcode.cfgExtra, .cfgTimeout, .cfgSck, .cfgPwm] ∧ s.conf.locked = true) ∨
            (i.opcode ∈ [Opcode.read, .apply] ∧ s.conf.locked = false) ∨
            (i = .read ∧ s.deser.rdState ≠ .idle) ∨
            (∃ dir duty, i = .apply dir duty ∧ (dir = .reserved ∨ 100 < duty.toNat)) →
          hostStep (s.presentWord (encode i)) = .refused .hostMoveOutsideTable) ∧
      (∀ off : BitVec 5, off ∉ [0x04#5, 0x08#5, 0x0C#5, 0x10#5, 0x14#5, 0x18#5] →
        hostStep (s.presentRead off) = .refused .hostMoveOutsideTable) ∧
      ∀ k t, s.hostAfter k = some t → s.after k = some t

/-! ### Commands -/

/-- 42_control.md R122: NOP writes no field, in any state; other words of its opcode are rejected with code 2; and a
cycle with a NOP is a cycle with no bus access. -/
def Obligations.NopChangesNothing : Prop :=
  ∀ s : State,
    decode 0x00000000#32 = .ok .nop ∧ exec .nop s = .next s ∧
      (∀ w : Word, w.extractLsb' 28 4 = 0x0#4 → w.extractLsb' 0 28 ≠ 0#28 →
        commandPhase w s = .next (s.recordError .reservedBits)) ∧
      step (s.presentWord 0x00000000#32) = step s.noAccess

/-- 40_adc_deserializer.md R76, CFG_EXTRA: encoding, effect, errors 2, 4 and 3, its corner case for a read in progress,
and its example. -/
def Obligations.CfgExtraRule : Prop :=
  ∀ (s : State) (n : BitVec 2),
    decode (0x10000000#32 ||| n.setWidth 32) = .ok (.cfgExtra n) ∧
      (s.conf.locked = false → n ≠ 0#2 →
        exec (.cfgExtra n) s = .next { s with conf := { s.conf with cfgExtra := n } }) ∧
      (s.conf.locked = true → exec (.cfgExtra n) s = .next (s.recordError .configLocked)) ∧
      (s.conf.locked = false → n = 0#2 → exec (.cfgExtra n) s = .next (s.recordError .illegalValue)) ∧
      (∀ w : Word, w.extractLsb' 28 4 = 0x1#4 → w.extractLsb' 2 26 ≠ 0#26 →
        commandPhase w s = .next (s.recordError .reservedBits)) ∧
      (∀ t, s.Inv → s.deser.rdState ≠ .idle → exec (.cfgExtra n) s = .next t → t.conf = s.conf) ∧
      ∃ t, step (State.reset.presentWord 0x10000003#32) = .next t ∧ t.readRegister 0x0C#5 = 0x00000003#32

/-- 40_adc_deserializer.md R77, CFG_TIMEOUT: encoding, effect, errors 2 and 4, no illegal value, and its example. -/
def Obligations.CfgTimeoutRule : Prop :=
  ∀ (s : State) (v : BitVec 24),
    decode (0x20000000#32 ||| v.setWidth 32) = .ok (.cfgTimeout v) ∧
      (s.conf.locked = false →
        exec (.cfgTimeout v) s = .next { s with conf := { s.conf with cfgTimeout := v } }) ∧
      (s.conf.locked = true → exec (.cfgTimeout v) s = .next (s.recordError .configLocked)) ∧
      (∀ w : Word, w.extractLsb' 28 4 = 0x2#4 → w.extractLsb' 24 4 ≠ 0#4 →
        commandPhase w s = .next (s.recordError .reservedBits)) ∧
      ∃ t, step (State.reset.presentWord 0x20000003#32) = .next t ∧ t.readRegister 0x10#5 = 0x00000003#32

/-- 40_adc_deserializer.md R78, CFG_SCK: encoding, effect, errors 2, 4 and 3, and its example. -/
def Obligations.CfgSckRule : Prop :=
  ∀ (s : State) (h : BitVec 8),
    decode (0x30000000#32 ||| h.setWidth 32) = .ok (.cfgSck h) ∧
      (s.conf.locked = false → h ≠ 0#8 →
        exec (.cfgSck h) s = .next { s with conf := { s.conf with cfgSckHalf := h } }) ∧
      (s.conf.locked = true → exec (.cfgSck h) s = .next (s.recordError .configLocked)) ∧
      (s.conf.locked = false → h = 0#8 → exec (.cfgSck h) s = .next (s.recordError .illegalValue)) ∧
      (∀ w : Word, w.extractLsb' 28 4 = 0x3#4 → w.extractLsb' 8 20 ≠ 0#20 →
        commandPhase w s = .next (s.recordError .reservedBits)) ∧
      ∃ t, step (State.reset.presentWord 0x30000001#32) = .next t ∧ t.readRegister 0x0C#5 = 0x00000100#32

/-- 41_pwm_generator.md R100, CFG_PWM: encoding, effect and the period it fixes, errors 2, 4 and 3, the bounds of the
period, and its example. -/
def Obligations.CfgPwmRule : Prop :=
  ∀ (s : State) (p : BitVec 16),
    decode (0x40000000#32 ||| p.setWidth 32) = .ok (.cfgPwm p) ∧
      (s.conf.locked = false → p ≠ 0#16 →
        exec (.cfgPwm p) s = .next { s with conf := { s.conf with cfgSlice := p } } ∧
          ({ s.conf with cfgSlice := p } : Conf).period = 100 * p.toNat ∧ 100 ≤ 100 * p.toNat ∧
            100 * p.toNat ≤ 6553500) ∧
      (s.conf.locked = true → exec (.cfgPwm p) s = .next (s.recordError .configLocked)) ∧
      (s.conf.locked = false → p = 0#16 → exec (.cfgPwm p) s = .next (s.recordError .illegalValue)) ∧
      (∀ w : Word, w.extractLsb' 28 4 = 0x4#4 → w.extractLsb' 16 12 ≠ 0#12 →
        commandPhase w s = .next (s.recordError .reservedBits)) ∧
      ∃ t, step (State.reset.presentWord 0x40000001#32) = .next t ∧ t.readRegister 0x14#5 = 0x00000001#32 ∧
        t.conf.period = 100

/-- 42_control.md R123, LOCK: encoding, effect, errors 2, 4 and 7 (which leave the block as it was but for the record),
that `cfg_timeout` is not checked, that only reset undoes it, that the configuration commands are then rejected with
code 4, and its two examples. -/
def Obligations.LockRule : Prop :=
  ∀ s : State,
    decode 0x50000000#32 = .ok .lock ∧
      (s.conf.locked = false → s.conf.cfgExtra ≠ 0#2 → s.conf.cfgSckHalf ≠ 0#8 → s.conf.cfgSlice ≠ 0#16 →
        exec .lock s = .next { s with conf := { s.conf with locked := true } }) ∧
      (s.conf.locked = true → exec .lock s = .next (s.recordError .configLocked)) ∧
      (s.conf.locked = false → s.conf.cfgExtra = 0#2 ∨ s.conf.cfgSckHalf = 0#8 ∨ s.conf.cfgSlice = 0#16 →
        exec .lock s = .next (s.recordError .configIncomplete)) ∧
      (∀ w : Word, w.extractLsb' 28 4 = 0x5#4 → w.extractLsb' 0 28 ≠ 0#28 →
        commandPhase w s = .next (s.recordError .reservedBits)) ∧
      (∀ t, step s = .next t → s.input.rst = false → s.conf.locked = true → t.conf.locked = true) ∧
      (∀ i : Instr, i.opcode ∈ [Opcode.cfgExtra, .cfgTimeout, .cfgSck, .cfgPwm, .lock] → s.conf.locked = true →
        exec i s = .next (s.recordError .configLocked)) ∧
      (∃ t,
        State.after 4
            { State.reset with
              inputs :=
                [0x10000001#32, 0x30000001#32, 0x40000001#32, 0x50000000#32].map
                  fun w => { Input.idle with busWr := true, busWdata := w } } = some t ∧
          t.statusReg = 0x00000008#32) ∧
      ∃ t, step (State.reset.presentWord 0x50000000#32) = .next t ∧ t.statusReg = 0x00000710#32 ∧
        t.conf.locked = false

/-- 40_adc_deserializer.md R79, READ: encoding, effect (with `sample` kept), errors 2, 5 and 6, BUSY in the next state,
and that no command word touches a read in progress, neither a second READ nor an APPLY. -/
def Obligations.ReadRule : Prop :=
  ∀ s : State,
    decode 0x60000000#32 = .ok .read ∧
      (s.conf.locked = true → s.deser.rdState = .idle →
        exec .read s =
            .next
              { s with
                deser :=
                  { rdState := .wait, waitCnt := 0, halfCnt := 0, pulseCnt := 0, acc := 0, sample := s.deser.sample,
                    valid := false, nrdy := false } } ∧
          ∃ t, step (s.presentWord 0x60000000#32) = .next t ∧ t.deser.rdState = .wait ∧ t.busy = true ∧
            t.deser.sample = s.deser.sample) ∧
      (s.conf.locked = false → exec .read s = .next (s.recordError .notLocked)) ∧
      (s.conf.locked = true → s.deser.rdState ≠ .idle →
        exec .read s = .next (s.recordError .readBusy)) ∧
      (∀ w : Word, s.deser.rdState ≠ .idle →
        ∃ t u, step (s.presentWord w) = .next t ∧ step s.noAccess = .next u ∧ t.deser = u.deser) ∧
      ∀ w : Word, w.extractLsb' 28 4 = 0x6#4 → w.extractLsb' 0 28 ≠ 0#28 →
        commandPhase w s = .next (s.recordError .reservedBits)

/-- 41_pwm_generator.md R102, APPLY: its operands (30_encoding.md R67: DIR 0b00 is STOP, 0b01 FWD, 0b10 BWD and 0b11 no
direction), its encoding, the intake's choice among STOP, start, repeat, new duty and reversal when it is accepted (the
sub-rules R103 to R108 give what each writes), that the same cycle then applies PwmAdvance to the result, and its errors
2, 5 and 3, each with the STOP of R108. -/
def Obligations.ApplyIntakeChoice : Prop :=
  ∀ (s : State) (dir : DirField) (d : Dir) (duty : BitVec 7),
    (DirField.stop.toBits = 0b00#2 ∧ direction .stop = some .stop) ∧
      (DirField.fwd.toBits = 0b01#2 ∧ direction .fwd = some .fwd) ∧
      (DirField.bwd.toBits = 0b10#2 ∧ direction .bwd = some .bwd) ∧
      (DirField.reserved.toBits = 0b11#2 ∧ direction .reserved = none) ∧
      decode (0x70000000#32 ||| (dir.toBits.setWidth 32 <<< 7) ||| duty.setWidth 32) = .ok (.apply dir duty) ∧
      (s.conf.locked = true → direction dir = some d → duty.toNat ≤ 100 →
        exec (.apply dir duty) s =
            .next
              { s with
                pwm :=
                  if d = .stop ∨ duty = 0#7 then s.pwm.stopIntake
                  else if s.pwm.actDir = .stop then
                    { s.pwm with pendValid := true, pendDir := d, pendDuty := duty }
                  else if d = s.pwm.actDir ∧ duty = s.pwm.actDuty then
                    { s.pwm with pendValid := false, pendDir := .stop, pendDuty := 0 }
                  else if d = s.pwm.actDir then { s.pwm with pendValid := true, pendDir := d, pendDuty := duty }
                  else s.pwm.reverse d duty } ∧
          ∃ t u, exec (.apply dir duty) s = .next u ∧ step (s.presentWord (encode (.apply dir duty))) = .next t ∧
            t.pwm = u.pwm.advance s.conf) ∧
      (s.conf.locked = false →
        exec (.apply dir duty) s = .next { s.recordError .notLocked with pwm := s.pwm.stopIntake }) ∧
      (s.conf.locked = true → dir = .reserved ∨ 100 < duty.toNat →
        exec (.apply dir duty) s = .next { s.recordError .illegalValue with pwm := s.pwm.stopIntake }) ∧
      ∀ w : Word, w.extractLsb' 28 4 = 0x7#4 → w.extractLsb' 9 19 ≠ 0#19 →
        commandPhase w s = .next { s.recordError .reservedBits with pwm := s.pwm.stopIntake }

/-- 41_pwm_generator.md R103, R108: an accepted APPLY with d = STOP, or with D = 0 in either direction, takes the drive
off, zeroes its counters and clears the pending command; a drive that ends is remembered (10_state.md R30: FWD after a
FWD drive, BWD after a BWD drive) and its stop count starts. -/
def Obligations.ApplyStopTakesTheDriveOff : Prop :=
  ∀ (s : State) (dir : DirField) (d : Dir) (duty : BitVec 7),
    s.conf.locked = true → direction dir = some d → duty.toNat ≤ 100 → d = .stop ∨ duty = 0#7 →
      exec (.apply dir duty) s =
        .next
          { s with
            pwm :=
              { actDir := .stop, actDuty := 0, sliceCnt := 0, tickCnt := 0, pendValid := false, pendDir := .stop,
                pendDuty := 0,
                lastDir :=
                  (match s.pwm.actDir with
                  | .stop => s.pwm.lastDir
                  | .fwd => .fwd
                  | .bwd => .bwd),
                stopCnt := if s.pwm.actDir = .stop then s.pwm.stopCnt else 0 } }

/-- 41_pwm_generator.md R104: repeating the active command changes nothing but clears a pending one, so with none
pending its cycle is one without a bus access; so does repeating STOP in STOP; repeating the pending command rewrites
the same value. -/
def Obligations.ApplyIsIdempotent : Prop :=
  ∀ (s : State) (dir : DirField) (d : Dir) (duty : BitVec 7),
    s.Inv → s.conf.locked = true → direction dir = some d → duty.toNat ≤ 100 →
      (d ≠ .stop → d = s.pwm.actDir → duty = s.pwm.actDuty → duty ≠ 0#7 →
        exec (.apply dir duty) s =
            .next { s with pwm := { s.pwm with pendValid := false, pendDir := .stop, pendDuty := 0 } } ∧
          (s.pwm.pendValid = false →
            step (s.presentWord (encode (.apply dir duty))) = step s.noAccess)) ∧
      (d = .stop → s.pwm.actDir = .stop →
        exec (.apply dir duty) s =
          .next { s with pwm := { s.pwm with pendValid := false, pendDir := .stop, pendDuty := 0 } }) ∧
      (s.pwm.pendValid = true → d = s.pwm.pendDir → duty = s.pwm.pendDuty →
        (s.pwm.actDir = .stop ∨ duty ≠ s.pwm.actDuty) → exec (.apply dir duty) s = .next s)

/-- 41_pwm_generator.md R105: the active direction with another duty becomes the pending command; the active duty stays
until the next period boundary, in this cycle or in a later one without a command, where it is adopted. -/
def Obligations.NewDutyWaitsForTheBoundary : Prop :=
  ∀ (s : State) (dir : DirField) (d : Dir) (duty : BitVec 7),
    s.conf.locked = true → direction dir = some d → duty.toNat ≤ 100 → d ≠ .stop → d = s.pwm.actDir →
      duty ≠ s.pwm.actDuty → duty ≠ 0#7 →
        exec (.apply dir duty) s =
            .next { s with pwm := { s.pwm with pendValid := true, pendDir := d, pendDuty := duty } } ∧
          (∃ t, step (s.presentWord (encode (.apply dir duty))) = .next t ∧ t.pwm.actDir = d ∧
            t.pwm.actDuty = if s.atBoundary then duty else s.pwm.actDuty) ∧
          ∀ u, u.input.admitted → u.input.command = none → u.pwm.actDir = d → u.pwm.pendValid = true →
            ∃ t, step u = .next t ∧ t.pwm.actDir = d ∧
              t.pwm.actDuty = if u.atBoundary then u.pwm.pendDuty else u.pwm.actDuty

/-- 41_pwm_generator.md R106: from STOP a drive command becomes pending without touching `stop_cnt` or `last_dir`, and
in the same step it starts if its direction is the last driven or the hold has elapsed; otherwise STOP goes on, and a
cycle without a command starts it just when the hold has elapsed. -/
def Obligations.ApplyFromStopWaitsForTheHold : Prop :=
  ∀ (s : State) (dir : DirField) (d : Dir) (duty : BitVec 7),
    s.conf.locked = true → direction dir = some d → duty.toNat ≤ 100 → d ≠ .stop → duty ≠ 0#7 → s.pwm.actDir = .stop →
      exec (.apply dir duty) s =
          .next { s with pwm := { s.pwm with pendValid := true, pendDir := d, pendDuty := duty } } ∧
        ∃ t, step (s.presentWord (encode (.apply dir duty))) = .next t ∧
          (LastDir.ofDir d = s.pwm.lastDir ∨ s.conf.period ≤ s.pwm.stopCnt.toNat →
            t.pwm.actDir = d ∧ t.pwm.actDuty = duty ∧ t.pwm.pendValid = false) ∧
          (¬(LastDir.ofDir d = s.pwm.lastDir ∨ s.conf.period ≤ s.pwm.stopCnt.toNat) →
            t.pwm.actDir = .stop ∧ t.pwm.pendValid = true ∧ t.pwm.pendDir = d ∧ t.pwm.pendDuty = duty ∧
              t.pwm.lastDir = s.pwm.lastDir ∧
              (t.input.admitted → t.input.command = none →
                ∃ u, step t = .next u ∧ (u.pwm.actDir = d ↔ s.conf.period ≤ t.pwm.stopCnt.toNat)))

/-- 41_pwm_generator.md R107: a drive command in the other direction stops the drive at once, remembers its direction
(10_state.md R30: FWD after a FWD drive, BWD after a BWD drive), starts the stop count and makes the new command pending;
the next state is STOP. -/
def Obligations.ApplyReversalStopsAtOnce : Prop :=
  ∀ (s : State) (dir : DirField) (d : Dir) (duty : BitVec 7),
    s.conf.locked = true → direction dir = some d → duty.toNat ≤ 100 → d ≠ .stop → duty ≠ 0#7 →
      s.pwm.actDir ≠ .stop → d ≠ s.pwm.actDir →
        exec (.apply dir duty) s =
            .next
              { s with
                pwm :=
                  { actDir := .stop, actDuty := 0, sliceCnt := 0, tickCnt := 0, pendValid := true, pendDir := d,
                    pendDuty := duty, lastDir := if s.pwm.actDir = .fwd then .fwd else .bwd, stopCnt := 0 } } ∧
          (s.conf.cfgSlice ≠ 0#16 →
            ∃ t, step (s.presentWord (encode (.apply dir duty))) = .next t ∧ t.pwm.actDir = .stop ∧
              t.pwm.stopCnt = 1#23 ∧ t.dirA = false ∧ t.dirB = false)

/-- 41_pwm_generator.md R108, 30_encoding.md R66: every rejected APPLY (code 5 before the lock, code 3 for DIR = 0b11 or
DUTY > 100 whatever DIR is, code 2 for a reserved bit) records its code and acts as STOP; while unlocked it changes
nothing but the record. -/
def Obligations.RejectedApplyStopsTheDrive : Prop :=
  ∀ s : State,
    (∀ dir duty, s.conf.locked = false →
      exec (.apply dir duty) s = .next { s.recordError .notLocked with pwm := s.pwm.stopIntake }) ∧
      (∀ dir duty, s.conf.locked = true → dir = .reserved ∨ 100 < duty.toNat →
        exec (.apply dir duty) s = .next { s.recordError .illegalValue with pwm := s.pwm.stopIntake }) ∧
      (∀ w : Word, w.extractLsb' 28 4 = 0x7#4 → w.extractLsb' 9 19 ≠ 0#19 →
        commandPhase w s = .next { s.recordError .reservedBits with pwm := s.pwm.stopIntake }) ∧
      s.pwm.stopIntake.actDir = .stop ∧ s.pwm.stopIntake.pendValid = false ∧
      (s.Inv → s.conf.locked = false → s.pwm.stopIntake = s.pwm)

/-- 42_control.md R124, CLEAR: encoding, effect in every state (NRDY and VALID stay), error 2, whose record stays, that
the next rejection is recorded, and its example. -/
def Obligations.ClearRule : Prop :=
  ∀ s : State,
    decode 0x80000000#32 = .ok .clear ∧
      exec .clear s = .next { s with err := { cmdErr := false, errCode := .none } } ∧
      (∀ w : Word, w.extractLsb' 28 4 = 0x8#4 → w.extractLsb' 0 28 ≠ 0#28 →
        commandPhase w s = .next (s.recordError .reservedBits)) ∧
      (∀ t c, exec .clear s = .next t → (t.recordError c).err = { cmdErr := true, errCode := c }) ∧
      (s.statusReg = 0x00000510#32 →
        ∃ t, step (s.presentWord 0x80000000#32) = .next t ∧ t.statusReg = 0x00000000#32)

/-- 60_exceptions.md R130: RecordError keeps the first error since reset or CLEAR and writes no other field. -/
def Obligations.FirstErrorIsKept : Prop :=
  ∀ (s : State) (c : ErrCode),
    (s.err.cmdErr = false → s.recordError c = { s with err := { cmdErr := true, errCode := c } }) ∧
      (s.err.cmdErr = true → s.recordError c = s)

/-- 60_exceptions.md R131: a cycle with a rejected command is the cycle with no command but for the error record, and
for the StopIntake of a rejected APPLY before the PWM advance. -/
def Obligations.RejectionIsPrecise : Prop :=
  ∀ (s : State) (w : Word), checkWord s w ≠ 0 →
    ∃ t u c, step (s.presentWord w) = .next t ∧ step s.noAccess = .next u ∧ c.toBits.toNat = checkWord s w ∧
      t =
        { u with
          err := if s.err.cmdErr then s.err else { cmdErr := true, errCode := c }
          pwm := if w.extractLsb' 28 4 = 0x7#4 then s.pwm.stopIntake.advance s.conf else u.pwm }

/-- 10_state.md R32: the error record in every step: reset and CLEAR empty it, the first rejection since then sets it
with its code, and nothing else changes it; the code is 0 exactly while CMD_ERR is 0. -/
def Obligations.ErrorRecordIsSticky : Prop :=
  ∀ s t : State, step s = .next t →
    (s.input.rst = true → t.err = { cmdErr := false, errCode := .none }) ∧
      (s.input.rst = false → s.input.command = none → t.err = s.err) ∧
      (∀ w, s.input.rst = false → s.input.command = some w →
        (w = 0x80000000#32 → t.err = { cmdErr := false, errCode := .none }) ∧
          (checkWord s w = 0 → w ≠ 0x80000000#32 → t.err = s.err) ∧
          (checkWord s w ≠ 0 → s.err.cmdErr = true → t.err = s.err) ∧
          (checkWord s w ≠ 0 → s.err.cmdErr = false →
            t.err.cmdErr = true ∧ t.err.errCode.toBits.toNat = checkWord s w)) ∧
      (s.Inv → (t.err.cmdErr = false ↔ t.err.errCode = .none))

/-! ### Frames -/

/-- The frame of the configuration commands CFG_EXTRA, CFG_TIMEOUT, CFG_SCK and CFG_PWM: each may write its own field
of the configuration, or else the error record, and nothing else; the registers of the other fields read as before. The
block has no memory (20_memory.md R49). -/
def Obligations.ConfigCommandFrame : Prop :=
  ∀ (s t : State) (i : Instr), i.opcode ∈ [Opcode.cfgExtra, .cfgTimeout, .cfgSck, .cfgPwm] → exec i s = .next t →
    t.deser = s.deser ∧ t.pwm = s.pwm ∧ t.inputs = s.inputs ∧ t.cycle = s.cycle ∧ t.conf.locked = s.conf.locked ∧
      (t.err = s.err ∨ t.conf = s.conf) ∧
      (i.opcode ≠ .cfgExtra → t.conf.cfgExtra = s.conf.cfgExtra) ∧
      (i.opcode ≠ .cfgTimeout → t.conf.cfgTimeout = s.conf.cfgTimeout) ∧
      (i.opcode ≠ .cfgSck → t.conf.cfgSckHalf = s.conf.cfgSckHalf) ∧
      (i.opcode ≠ .cfgPwm → t.conf.cfgSlice = s.conf.cfgSlice) ∧
      ∀ off, off ≠ 0x04#5 → (off = 0x0C#5 → i.opcode ≠ .cfgExtra ∧ i.opcode ≠ .cfgSck) →
        (off = 0x10#5 → i.opcode ≠ .cfgTimeout) → (off = 0x14#5 → i.opcode ≠ .cfgPwm) →
          t.readRegister off = s.readRegister off

/-- The frame of READ: it writes deserializer fields other than `sample`, or the error record, and nothing else. -/
def Obligations.ReadFrame : Prop :=
  ∀ s t : State, exec .read s = .next t →
    t.conf = s.conf ∧ t.pwm = s.pwm ∧ t.inputs = s.inputs ∧ t.cycle = s.cycle ∧
      t.deser.sample = s.deser.sample ∧ (t.err = s.err ∨ t.deser = s.deser) ∧
      ∀ off, off ≠ 0x04#5 → off ≠ 0x1C#5 → t.readRegister off = s.readRegister off

/-- The frame of APPLY: it writes PWM generator fields and, rejected, the error record, and nothing else; `stop_cnt`
and `last_dir` change only when a drive ends. -/
def Obligations.ApplyFrame : Prop :=
  ∀ (s t : State) (dir : DirField) (duty : BitVec 7), exec (.apply dir duty) s = .next t →
    t.conf = s.conf ∧ t.deser = s.deser ∧ t.inputs = s.inputs ∧ t.cycle = s.cycle ∧
      (t.err = s.err ∨ t.pwm = s.pwm.stopIntake) ∧
      (s.pwm.actDir = .stop ∨ t.pwm.actDir ≠ .stop →
        t.pwm.stopCnt = s.pwm.stopCnt ∧ t.pwm.lastDir = s.pwm.lastDir) ∧
      ∀ off, off ≠ 0x04#5 → off ≠ 0x18#5 → t.readRegister off = s.readRegister off

/-- The frame of the control commands: NOP writes nothing; LOCK writes only `locked` or the error record; CLEAR writes
only the error record. -/
def Obligations.ControlCommandFrame : Prop :=
  ∀ s t : State,
    (exec .nop s = .next t → t = s) ∧
      (exec .lock s = .next t →
        t.deser = s.deser ∧ t.pwm = s.pwm ∧ t.inputs = s.inputs ∧ t.cycle = s.cycle ∧
          t.conf.cfgExtra = s.conf.cfgExtra ∧ t.conf.cfgTimeout = s.conf.cfgTimeout ∧
          t.conf.cfgSckHalf = s.conf.cfgSckHalf ∧ t.conf.cfgSlice = s.conf.cfgSlice ∧
          (t.err = s.err ∨ t.conf = s.conf) ∧
          ∀ off, off ≠ 0x04#5 → t.readRegister off = s.readRegister off) ∧
      (exec .clear s = .next t →
        t.conf = s.conf ∧ t.deser = s.deser ∧ t.pwm = s.pwm ∧ t.inputs = s.inputs ∧ t.cycle = s.cycle ∧
          ∀ off, off ≠ 0x04#5 → t.readRegister off = s.readRegister off)

/-! ### Host port and pins -/

/-- 10_state.md R34: every field of STATUS, bit by bit, and its value after reset. -/
def Obligations.StatusLayout : Prop :=
  (∀ s : State,
    s.readRegister 0x04#5 = s.statusReg ∧
      s.statusReg.extractLsb' 0 1 = BitVec.ofBool (decide (s.deser.rdState ≠ .idle)) ∧
      s.statusReg.extractLsb' 1 1 = BitVec.ofBool s.deser.valid ∧
      s.statusReg.extractLsb' 2 1 = BitVec.ofBool s.deser.nrdy ∧
      s.statusReg.extractLsb' 3 1 = BitVec.ofBool s.conf.locked ∧
      s.statusReg.extractLsb' 4 1 = BitVec.ofBool s.err.cmdErr ∧
      s.statusReg.extractLsb' 5 3 = 0#3 ∧
      s.statusReg.extractLsb' 8 4 = s.err.errCode.toBits ∧
      s.statusReg.extractLsb' 12 2 =
        (match s.pwm.actDir with | .stop => 0b00#2 | .fwd => 0b01#2 | .bwd => 0b10#2) ∧
      s.statusReg.extractLsb' 14 1 = BitVec.ofBool s.pwm.pendValid ∧
      s.statusReg.extractLsb' 15 1 = 0#1 ∧
      s.statusReg.extractLsb' 16 7 = s.pwm.actDuty ∧
      s.statusReg.extractLsb' 23 1 = 0#1 ∧
      s.statusReg.extractLsb' 24 2 =
        (match s.pwm.lastDir with | .unknown => 0b00#2 | .fwd => 0b01#2 | .bwd => 0b10#2) ∧
      s.statusReg.extractLsb' 26 6 = 0#6) ∧
    State.reset.statusReg = 0x00000000#32

/-- 10_state.md R35: the layouts of the other registers, with the encodings of R19 and R29, that each reads 0 after
reset, and that no register shows `acc`, `wait_cnt`, `half_cnt`, `slice_cnt`, `tick_cnt` or `stop_cnt`. -/
def Obligations.RegisterLayouts : Prop :=
  (∀ s : State,
    s.readRegister 0x00#5 = 0#32 ∧ s.readRegister 0x08#5 = s.deser.sample ∧
      (s.readRegister 0x0C#5).extractLsb' 0 2 = s.conf.cfgExtra ∧
      (s.readRegister 0x0C#5).extractLsb' 2 6 = 0#6 ∧
      (s.readRegister 0x0C#5).extractLsb' 8 8 = s.conf.cfgSckHalf ∧
      (s.readRegister 0x0C#5).extractLsb' 16 16 = 0#16 ∧
      (s.readRegister 0x10#5).extractLsb' 0 24 = s.conf.cfgTimeout ∧
      (s.readRegister 0x10#5).extractLsb' 24 8 = 0#8 ∧
      (s.readRegister 0x14#5).extractLsb' 0 16 = s.conf.cfgSlice ∧
      (s.readRegister 0x14#5).extractLsb' 16 16 = 0#16 ∧
      (s.readRegister 0x18#5).extractLsb' 0 7 = s.pwm.pendDuty ∧
      (s.readRegister 0x18#5).extractLsb' 7 2 =
        (match s.pwm.pendDir with | .stop => 0b00#2 | .fwd => 0b01#2 | .bwd => 0b10#2) ∧
      (s.readRegister 0x18#5).extractLsb' 9 22 = 0#22 ∧
      (s.readRegister 0x18#5).extractLsb' 31 1 = BitVec.ofBool s.pwm.pendValid ∧
      (s.readRegister 0x1C#5).extractLsb' 0 2 =
        (match s.deser.rdState with | .idle => 0#2 | .wait => 1#2 | .high => 2#2 | .low => 3#2) ∧
      (s.readRegister 0x1C#5).extractLsb' 2 5 = s.deser.pulseCnt ∧
      (s.readRegister 0x1C#5).extractLsb' 7 25 = 0#25) ∧
    (∀ off, State.reset.readRegister off = 0#32) ∧
    ∀ (s : State) (acc waitCnt : BitVec 24) (halfCnt : BitVec 8) (sliceCnt : BitVec 7) (tickCnt : BitVec 16)
      (stopCnt : BitVec 23) (off : BitVec 5),
      State.readRegister
          { s with
            deser := { s.deser with acc := acc, waitCnt := waitCnt, halfCnt := halfCnt }
            pwm := { s.pwm with sliceCnt := sliceCnt, tickCnt := tickCnt, stopCnt := stopCnt } } off =
        s.readRegister off

/-- 20_memory.md R42: a read returns the register computed from this cycle's state, in the same cycle, and its cycle is
one with no bus access: no side effect on any field. -/
def Obligations.ReadsHaveNoSideEffect : Prop :=
  ∀ (s : State) (off : BitVec 5),
    (s.presentRead off).busRdata = some (s.readRegister off) ∧ step (s.presentRead off) = step s.noAccess

/-- 20_memory.md R44: a misaligned write is a cycle with no bus access; a misaligned read returns 0 and changes
nothing. -/
def Obligations.MisalignedAccessesDoNothing : Prop :=
  ∀ (s : State) (off : BitVec 5) (w : Word), off.extractLsb' 0 2 ≠ 0#2 →
    step (s.presentWrite off w) = step s.noAccess ∧ (s.presentRead off).busRdata = some 0#32 ∧
      step (s.presentRead off) = step s.noAccess

/-- 20_memory.md R43: a write to offset 0x00 issues the command, whose effect or rejection is in the next state; a write
to any other aligned offset is ignored. -/
def Obligations.OnlyCmdWritesIssueCommands : Prop :=
  ∀ (s : State) (off : BitVec 5) (w : Word), off.extractLsb' 0 2 = 0#2 →
    (off = 0x00#5 →
      ∃ t u, commandPhase w (s.presentWrite off w) = .next t ∧ step (s.presentWrite off w) = .next u ∧
        u.conf = t.conf ∧ u.err = t.err ∧ u.pwm = t.pwm.advance t.conf ∧
        (s.deser.rdState = .idle → u.deser = t.deser)) ∧
      (off ≠ 0x00#5 → step (s.presentWrite off w) = step s.noAccess)

/-- 10_state.md R33, 41_pwm_generator.md R118: the three pins as functions of the state, and DIR_A and DIR_B never both
high, in every state. -/
def Obligations.PinsFollowTheState : Prop :=
  ∀ s : State,
    (s.sck = true ↔ s.deser.rdState = .high) ∧
      (s.dirA = true ↔ s.pwm.actDir = .bwd ∧ s.pwm.sliceCnt.toNat < s.pwm.actDuty.toNat) ∧
      (s.dirB = true ↔ s.pwm.actDir = .fwd ∧ s.pwm.sliceCnt.toNat < s.pwm.actDuty.toNat) ∧
      ¬(s.dirA = true ∧ s.dirB = true)

/-- 41_pwm_generator.md R114: D = 100 holds the enabled line high in every state of the drive, also across a period
boundary. -/
def Obligations.FullDutyNeverToggles : Prop :=
  ∀ s : State, s.Inv → s.pwm.actDuty = 100#7 →
    s.enabledLine = true ∧
      ∀ t, step s = .next t → t.pwm.actDir = s.pwm.actDir → t.pwm.actDuty = 100#7 → t.enabledLine = true

/-! ### Reset and invariants -/

/-- 70_reset_and_hazards.md R139: a cycle with rst = 1 gives RESET_STATE whatever the state, the bus access and dout
are, and so for as long as rst stays 1; in it every field has its reset value, the pins are low and every register
reads 0. -/
def Obligations.ResetGivesResetState : Prop :=
  (∀ s : State, s.input.rst = true →
    ∃ t, step s = .next t ∧
      t.conf = { cfgExtra := 0, cfgTimeout := 0, cfgSckHalf := 0, cfgSlice := 0, locked := false } ∧
      t.deser =
        { rdState := .idle, waitCnt := 0, halfCnt := 0, pulseCnt := 0, acc := 0, sample := 0, valid := false,
          nrdy := false } ∧
      t.pwm =
        { actDir := .stop, actDuty := 0, sliceCnt := 0, tickCnt := 0, pendValid := false, pendDir := .stop,
          pendDuty := 0, lastDir := .unknown, stopCnt := 0 } ∧
      t.err = { cmdErr := false, errCode := .none }) ∧
    ∀ t : State, t.conf = .reset → t.deser = .reset → t.pwm = .reset → t.err = .reset →
      t.sck = false ∧ t.dirA = false ∧ t.dirB = false ∧ ∀ off, t.readRegister off = 0#32

/-- The state after reset meets the invariant (10_state.md R37). -/
def Obligations.InvariantHoldsAtReset : Prop := State.reset.Inv

/-- Every step from a state that meets the invariant gives one that meets it: the seven items of 10_state.md R37, with
R20 to R22, R25, R26, R28 to R30, 40_adc_deserializer.md R89 and 42_control.md R123, which make them inductive. -/
def Obligations.InvariantIsKeptByEveryStep : Prop := ∀ s t : State, s.Inv → step s = .next t → t.Inv

/-- 10_state.md R37: the seven items hold in every state reachable from reset, whatever the inputs. -/
def Obligations.SevenInvariantsHoldInEveryReachableState : Prop :=
  ∀ (l : List Input) (k : Nat) (t : State),
    State.after k { State.reset with inputs := l } = some t → t.SevenInvariants

/-! ### The deserializer -/

/-- 40_adc_deserializer.md R83: the ready check, the ready test before the timeout test, whatever the bus does; and a
read whose `cfg_timeout + 1` checks all find DOUT high fails after exactly those, with no SCK pulse and `sample` and
`valid` unchanged. -/
def Obligations.ReadyCheck : Prop :=
  ∀ s : State, s.deser.rdState = .wait →
    (s.input.admitted →
      ∃ t, step s = .next t ∧
        t.deser =
          if s.dout = false then { s.deser with rdState := .high, halfCnt := 0 }
          else if s.deser.waitCnt = s.conf.cfgTimeout then { s.deser with rdState := .idle, nrdy := true }
          else { s.deser with waitCnt := s.deser.waitCnt + 1 }) ∧
      (s.Inv → s.deser.waitCnt = 0#24 → s.Undisturbed (s.conf.cfgTimeout.toNat + 1) →
        (∀ k, k ≤ s.conf.cfgTimeout.toNat → s.doutAt k = true) →
          (∀ k, k ≤ s.conf.cfgTimeout.toNat →
            ∃ u, s.after k = some u ∧ u.deser.rdState = .wait ∧ u.sck = false) ∧
          ∃ t, s.after (s.conf.cfgTimeout.toNat + 1) = some t ∧ t.deser.rdState = .idle ∧ t.deser.nrdy = true ∧
            t.deser.valid = false ∧ t.deser.sample = s.deser.sample ∧ t.sck = false)

/-- 40_adc_deserializer.md R84, R85: in HIGH the phase goes on until its last cycle, and then SCK falls: a data pulse
shifts the sampled bit in at bit 0, an extra pulse leaves the accumulator, and the pulse is counted; whatever the bus
does. -/
def Obligations.HighPhaseAndFallingEdge : Prop :=
  ∀ s : State, s.deser.rdState = .high → s.input.admitted →
    ∃ t, step s = .next t ∧
      (s.deser.halfCnt.toNat + 1 < s.conf.cfgSckHalf.toNat →
        t.deser = { s.deser with halfCnt := s.deser.halfCnt + 1 }) ∧
      (s.deser.halfCnt.toNat + 1 = s.conf.cfgSckHalf.toNat →
        t.deser.rdState = .low ∧ t.deser.halfCnt = 0#8 ∧ t.deser.pulseCnt = s.deser.pulseCnt + 1 ∧ t.sck = false ∧
          t.deser.waitCnt = s.deser.waitCnt ∧ t.deser.sample = s.deser.sample ∧ t.deser.valid = s.deser.valid ∧
          t.deser.nrdy = s.deser.nrdy ∧
          (s.deser.pulseCnt.toNat < 24 →
            t.deser.acc.getLsbD 0 = s.dout ∧ ∀ j, j < 23 → t.deser.acc.getLsbD (j + 1) = s.deser.acc.getLsbD j) ∧
          (24 ≤ s.deser.pulseCnt.toNat → t.deser.acc = s.deser.acc))

/-- 40_adc_deserializer.md R86, R87, R88: in LOW the phase goes on until its last cycle, and then the next pulse rises,
or, with all `24 + cfg_extra` pulses done, the read completes with the sign-extended accumulator; whatever the bus
does. -/
def Obligations.LowPhaseAndCompletion : Prop :=
  ∀ s : State, s.deser.rdState = .low → s.input.admitted →
    ∃ t, step s = .next t ∧
      (s.deser.halfCnt.toNat + 1 < s.conf.cfgSckHalf.toNat →
        t.deser = { s.deser with halfCnt := s.deser.halfCnt + 1 }) ∧
      (s.deser.halfCnt.toNat + 1 = s.conf.cfgSckHalf.toNat →
        s.deser.pulseCnt.toNat < 24 + s.conf.cfgExtra.toNat →
          t.deser = { s.deser with rdState := .high, halfCnt := 0 }) ∧
      (s.deser.halfCnt.toNat + 1 = s.conf.cfgSckHalf.toNat →
        s.deser.pulseCnt.toNat = 24 + s.conf.cfgExtra.toNat →
          t.deser =
              { s.deser with
                rdState := .idle
                valid := true
                sample :=
                  if s.deser.acc.getLsbD 23 then s.deser.acc.setWidth 32 + 0xFF000000#32
                  else s.deser.acc.setWidth 32 } ∧
            t.deser.sample.toInt = (s.deser.acc.toNat : Int) - (if s.deser.acc.getLsbD 23 then 2 ^ 24 else 0))

/-- 40_adc_deserializer.md R82: while IDLE the deserializer fields change only through an accepted READ. -/
def Obligations.IdleDeserializerChangesOnlyByRead : Prop :=
  ∀ s : State, s.deser.rdState = .idle → s.input.admitted →
    ∃ t, step s = .next t ∧
      (s.input.command = some 0x60000000#32 → s.conf.locked = true →
        t.deser.rdState = .wait ∧ t.deser.valid = false ∧ t.deser.nrdy = false ∧
          t.deser.sample = s.deser.sample) ∧
      (¬(s.input.command = some 0x60000000#32 ∧ s.conf.locked = true) → t.deser = s.deser)

/-- 10_state.md R24: `sample` is 0 after reset and otherwise written only by a completion, with the sign-extended
accumulator of the read; a new READ and a failed read keep it; and it always is `sext_32` of a 24-bit number. -/
def Obligations.SampleChangesOnlyAtCompletion : Prop :=
  ∀ s t : State, step s = .next t →
    (s.input.rst = true → t.deser.sample = 0#32) ∧
      (s.input.rst = false →
        t.deser.sample = s.deser.sample ∨
          (s.deser.rdState = .low ∧ t.deser.rdState = .idle ∧ t.deser.valid = true ∧
            t.deser.sample = s.deser.acc.signExtend 32)) ∧
      (s.Inv →
        (∃ v : BitVec 24, t.deser.sample = v.signExtend 32) ∧ -2 ^ 23 ≤ t.deser.sample.toInt ∧
          t.deser.sample.toInt ≤ 2 ^ 23 - 1)

/-- 40_adc_deserializer.md R94: a read in progress cannot be cancelled: in two states alike but for the bus access of
the cycle the deserializer does the same; and without reset it ends only by completion or by timeout. -/
def Obligations.ReadCannotBeCancelled : Prop :=
  ∀ s s' t t' : State, s.deser.rdState ≠ .idle → s'.deser = s.deser → s'.conf = s.conf → s'.dout = s.dout →
    s.input.rst = false → s'.input.rst = false → step s = .next t → step s' = .next t' →
      t.deser = t'.deser ∧
        (t.deser.rdState = .idle →
          (s.deser.rdState = .low ∧ t.deser.valid = true) ∨ (s.deser.rdState = .wait ∧ t.deser.nrdy = true))

/-- 40_adc_deserializer.md R90, R91: the timing of one read accepted in this cycle, with the first ready check that
finds DOUT low `w` checks later: the SCK waveform pulse by pulse, BUSY up to the completion state, the completion state
and its SAMPLE, `sext_32` of the bits captured at the data pulses (`AdcSends`, premise (b) of R93, whose bits 23 to 0 they
are); and the timing of a read that finds DOUT high at every check. -/
def Obligations.ReadTimingAndResult : Prop :=
  ∀ (s r : State) (w : Nat), s.Inv → s.conf.locked = true → s.deser.rdState = .idle → s.input.admitted →
    s.input.command = some 0x60000000#32 → step s = .next r →
      (w ≤ r.conf.cfgTimeout.toNat → r.ReadyAfter w →
        r.Undisturbed (1 + w + 2 * r.conf.cfgSckHalf.toNat * r.conf.pulses) →
          (∀ j, j < 1 + w + 2 * r.conf.cfgSckHalf.toNat * r.conf.pulses →
            ∃ u, r.after j = some u ∧ u.busy = true) ∧
          (∀ j, j ≤ w → ∃ u, r.after j = some u ∧ u.sck = false) ∧
          (∀ k j, k < r.conf.pulses → j < r.conf.cfgSckHalf.toNat →
            (∃ u, r.after (1 + w + 2 * r.conf.cfgSckHalf.toNat * k + j) = some u ∧ u.sck = true) ∧
              ∃ u, r.after (1 + w + 2 * r.conf.cfgSckHalf.toNat * k + r.conf.cfgSckHalf.toNat + j) = some u ∧
                u.sck = false) ∧
          ∃ t, r.after (1 + w + 2 * r.conf.cfgSckHalf.toNat * r.conf.pulses) = some t ∧ t.deser.rdState = .idle ∧
            t.deser.valid = true ∧ t.deser.nrdy = false ∧ t.busy = false ∧
            ∀ raw, r.AdcSends w raw → t.deser.sample = raw.signExtend 32) ∧
      ((∀ k, k ≤ r.conf.cfgTimeout.toNat → r.doutAt k = true) → r.Undisturbed (r.conf.cfgTimeout.toNat + 1) →
        (∀ j, j ≤ r.conf.cfgTimeout.toNat → ∃ u, r.after j = some u ∧ u.busy = true) ∧
          ∃ t, r.after (r.conf.cfgTimeout.toNat + 1) = some t ∧ t.deser.rdState = .idle ∧ t.deser.nrdy = true ∧
            t.busy = false) ∧
      (0x7FFFFF#24).signExtend 32 = 0x007FFFFF#32 ∧ (0x800000#24).signExtend 32 = 0xFF800000#32 ∧
      (0xFFFFFF#24).signExtend 32 = 0xFFFFFFFF#32 ∧ (0x000000#24).signExtend 32 = 0x00000000#32

/-! ### The PWM generator -/

/-- 41_pwm_generator.md R112: PwmAdvance, case by case, on the state `u` after the command phase, which is `s` where no
command is presented. -/
def Obligations.PwmAdvanceCases : Prop :=
  ∀ s u : State, s.input.admitted →
    (s.input.command = none ∧ u = s) ∨ (∃ w, s.input.command = some w ∧ commandPhase w s = .next u) →
    ∃ t, step s = .next t ∧
      (u.pwm.actDir = .stop → u.pwm.pendValid = true →
        LastDir.ofDir u.pwm.pendDir = u.pwm.lastDir ∨ 100 * u.conf.cfgSlice.toNat ≤ u.pwm.stopCnt.toNat →
          t.pwm =
            { actDir := u.pwm.pendDir, actDuty := u.pwm.pendDuty, sliceCnt := 0, tickCnt := 0, pendValid := false,
              pendDir := .stop, pendDuty := 0, lastDir := LastDir.ofDir u.pwm.pendDir, stopCnt := u.pwm.stopCnt }) ∧
      (u.pwm.actDir = .stop →
        ¬(u.pwm.pendValid = true ∧
            (LastDir.ofDir u.pwm.pendDir = u.pwm.lastDir ∨ 100 * u.conf.cfgSlice.toNat ≤ u.pwm.stopCnt.toNat)) →
          t.pwm = { u.pwm with stopCnt := t.pwm.stopCnt } ∧
            t.pwm.stopCnt.toNat = min (u.pwm.stopCnt.toNat + 1) (2 ^ 23 - 1)) ∧
      (u.pwm.actDir ≠ .stop → u.pwm.tickCnt.toNat + 1 < u.conf.cfgSlice.toNat →
        t.pwm = { u.pwm with tickCnt := u.pwm.tickCnt + 1 }) ∧
      (u.pwm.actDir ≠ .stop → u.conf.cfgSlice.toNat ≤ u.pwm.tickCnt.toNat + 1 → u.pwm.sliceCnt.toNat < 99 →
        t.pwm = { u.pwm with tickCnt := 0, sliceCnt := u.pwm.sliceCnt + 1 }) ∧
      (u.pwm.actDir ≠ .stop → u.conf.cfgSlice.toNat ≤ u.pwm.tickCnt.toNat + 1 → 99 ≤ u.pwm.sliceCnt.toNat →
        t.pwm =
          if u.pwm.pendValid then
            { u.pwm with
              tickCnt := 0, sliceCnt := 0, actDuty := u.pwm.pendDuty, pendValid := false, pendDir := .stop,
              pendDuty := 0 }
          else { u.pwm with tickCnt := 0, sliceCnt := 0 })

/-- 41_pwm_generator.md R115: after APPLY STOP, APPLY d, 0 or any rejected APPLY the next state is STOP with both lines
low; and both lines are low in every state that is in STOP. -/
def Obligations.StopLatencyIsOneCycle : Prop :=
  (∀ (s : State) (w : Word), w.extractLsb' 28 4 = 0x7#4 →
    checkWord s w ≠ 0 ∨ w.extractLsb' 7 2 = 0#2 ∨ w.extractLsb' 0 7 = 0#7 →
      ∃ t, step (s.presentWord w) = .next t ∧ t.pwm.actDir = .stop ∧ t.pwm.pendValid = false ∧ t.dirA = false ∧
        t.dirB = false) ∧
    ∀ u : State, u.pwm.actDir = .stop → u.dirA = false ∧ u.dirB = false

/-- 41_pwm_generator.md R113: over a full period of a drive the enabled line is high in exactly
`act_duty × cfg_slice` of its `100 × cfg_slice` states, and `act_duty` is one value; whatever commands arrive that do
not stop or reverse the drive. -/
def Obligations.DutyFractionIsExact : Prop :=
  ∀ s : State, s.Inv → s.pwm.actDir ≠ .stop → s.pwm.sliceCnt = 0#7 → s.pwm.tickCnt = 0#16 →
    (∀ k, k < s.conf.period → ∃ u, s.after k = some u ∧ u.pwm.actDir = s.pwm.actDir) →
      ((List.range s.conf.period).filter s.lineHighAt).length = s.pwm.actDuty.toNat * s.conf.cfgSlice.toNat ∧
        ∀ k u, k < s.conf.period → s.after k = some u → u.pwm.actDuty = s.pwm.actDuty

/-- 41_pwm_generator.md R116: between a state that drives one direction and a later state that drives the other there
are at least PERIOD consecutive STOP states, whatever the inputs, resets among them (PERIOD is that of the
configuration under which the later state drives). -/
def Obligations.DirectionChangePassesThroughStop : Prop :=
  ∀ (s t : State) (j : Nat), s.Inv → s.after j = some t → s.pwm.actDir ≠ .stop → t.pwm.actDir ≠ .stop →
    s.pwm.actDir ≠ t.pwm.actDir →
      ∃ a, 0 < a ∧ a + t.conf.period ≤ j ∧
        ∀ k, a ≤ k → k < a + t.conf.period → ∃ u, s.after k = some u ∧ u.pwm.actDir = .stop

/-- 41_pwm_generator.md R119 (c): after a reversal, absent later commands, exactly PERIOD STOP states follow and then
the new drive. -/
def Obligations.ReversalTakesExactlyOnePeriod : Prop :=
  ∀ (s : State) (dir : DirField) (d : Dir) (duty : BitVec 7), s.Inv → s.pwm.actDir ≠ .stop →
    direction dir = some d → d ≠ .stop → d ≠ s.pwm.actDir → duty ≠ 0#7 → duty.toNat ≤ 100 →
      s.input.command = some (encode (.apply dir duty)) → s.Undisturbed (s.conf.period + 1) →
        s.NoCommand 1 (s.conf.period + 1) →
          (∀ k, 1 ≤ k → k ≤ s.conf.period → ∃ u, s.after k = some u ∧ u.pwm.actDir = .stop) ∧
            ∃ u, s.after (s.conf.period + 1) = some u ∧ u.pwm.actDir = d ∧ u.pwm.actDuty = duty

/-- 41_pwm_generator.md R117: the first drive after reset cannot start before state s_{PERIOD+1}, whatever the
inputs. -/
def Obligations.FirstDriveAfterResetWaitsOnePeriod : Prop :=
  ∀ (l : List Input) (c k : Nat) (t : State),
    State.after k { State.reset with inputs := l, cycle := c } = some t → t.pwm.actDir ≠ .stop →
      t.conf.period + 1 ≤ k

/-- 41_pwm_generator.md R120, 70_reset_and_hazards.md R153: the two engines do not interact. Of two states alike in
configuration and bus access, the next PWM fields depend only on the PWM fields, and the next deserializer fields only
on the deserializer fields and dout. -/
def Obligations.EnginesDoNotInteract : Prop :=
  ∀ s s' t t' : State, s.conf = s'.conf → s.input.sameBus s'.input → step s = .next t → step s' = .next t' →
    (s.pwm = s'.pwm → t.pwm = t'.pwm) ∧ (s.deser = s'.deser → s.dout = s'.dout → t.deser = t'.deser)

/-- 42_control.md R125, 41_pwm_generator.md R111: no command moves the block from locked to unlocked or changes the
locked configuration; only reset does. -/
def Obligations.LockedConfigurationIsFrozen : Prop :=
  ∀ s t : State, step s = .next t → s.input.rst = false → s.conf.locked = true → t.conf = s.conf

/-- 70_reset_and_hazards.md R143, R144: from RESET_STATE four CFG words with legal values and LOCK, one a cycle, leave
the block locked in the fifth state with those values and no error, in STOP and idle. -/
def Obligations.BootSequenceLocks : Prop :=
  ∀ (e : BitVec 2) (v : BitVec 24) (h : BitVec 8) (p : BitVec 16) (l : List Input), e ≠ 0#2 → h ≠ 0#8 → p ≠ 0#16 →
    ∃ t,
      State.after 5
          { State.reset with
            inputs :=
              [encode (.cfgExtra e), encode (.cfgTimeout v), encode (.cfgSck h), encode (.cfgPwm p),
                  encode .lock].map
                (fun w => { Input.idle with busWr := true, busWdata := w }) ++ l } = some t ∧
        t.conf = { cfgExtra := e, cfgTimeout := v, cfgSckHalf := h, cfgSlice := p, locked := true } ∧
        t.err = .reset ∧ t.deser = .reset ∧ t.pwm.actDir = .stop ∧ t.pwm.stopCnt = 5#23 ∧ t.inputs = l

/-- 41_pwm_generator.md R119 (a), (b): an accepted drive command in STOP, absent later commands, is active in the next
state if its direction is the last driven or the hold has elapsed, and otherwise in the state after the first with
`stop_cnt ≥ PERIOD`, with STOP until then. -/
def Obligations.StartFromStopTakesTheRestOfTheHold : Prop :=
  ∀ (s : State) (dir : DirField) (d : Dir) (duty : BitVec 7) (m : Nat), s.Inv → s.conf.locked = true →
    s.pwm.actDir = .stop → direction dir = some d → d ≠ .stop → duty ≠ 0#7 → duty.toNat ≤ 100 →
      s.input.command = some (encode (.apply dir duty)) →
        m = (if LastDir.ofDir d = s.pwm.lastDir then 0 else s.conf.period - s.pwm.stopCnt.toNat) →
          s.Undisturbed (m + 1) → s.NoCommand 1 (m + 1) →
            (∀ k, k ≤ m → ∃ u, s.after k = some u ∧ u.pwm.actDir = .stop) ∧
              ∃ u, s.after (m + 1) = some u ∧ u.pwm.actDir = d ∧ u.pwm.actDuty = duty
end

