-- ==== Sys2Proof/Laws/State.lean ====
section
/-! SUPPORT. One lemma per field per update of the state: what each update leaves in each field. -/

namespace Sys2Proof.Machine

@[simp] theorem State.setCfgExtra_conf (s : State) (n : BitVec 2) : (s.setCfgExtra n).conf = { s.conf with cfgExtra := n } := rfl
@[simp] theorem State.setCfgExtra_deser (s : State) (n : BitVec 2) : (s.setCfgExtra n).deser = s.deser := rfl
@[simp] theorem State.setCfgExtra_pwm (s : State) (n : BitVec 2) : (s.setCfgExtra n).pwm = s.pwm := rfl
@[simp] theorem State.setCfgExtra_err (s : State) (n : BitVec 2) : (s.setCfgExtra n).err = s.err := rfl
@[simp] theorem State.setCfgExtra_inputs (s : State) (n : BitVec 2) : (s.setCfgExtra n).inputs = s.inputs := rfl
@[simp] theorem State.setCfgExtra_cycle (s : State) (n : BitVec 2) : (s.setCfgExtra n).cycle = s.cycle := rfl

@[simp] theorem State.setCfgTimeout_conf (s : State) (t : BitVec 24) : (s.setCfgTimeout t).conf = { s.conf with cfgTimeout := t } := rfl
@[simp] theorem State.setCfgTimeout_deser (s : State) (t : BitVec 24) : (s.setCfgTimeout t).deser = s.deser := rfl
@[simp] theorem State.setCfgTimeout_pwm (s : State) (t : BitVec 24) : (s.setCfgTimeout t).pwm = s.pwm := rfl
@[simp] theorem State.setCfgTimeout_err (s : State) (t : BitVec 24) : (s.setCfgTimeout t).err = s.err := rfl
@[simp] theorem State.setCfgTimeout_inputs (s : State) (t : BitVec 24) : (s.setCfgTimeout t).inputs = s.inputs := rfl
@[simp] theorem State.setCfgTimeout_cycle (s : State) (t : BitVec 24) : (s.setCfgTimeout t).cycle = s.cycle := rfl

@[simp] theorem State.setCfgSckHalf_conf (s : State) (h : BitVec 8) : (s.setCfgSckHalf h).conf = { s.conf with cfgSckHalf := h } := rfl
@[simp] theorem State.setCfgSckHalf_deser (s : State) (h : BitVec 8) : (s.setCfgSckHalf h).deser = s.deser := rfl
@[simp] theorem State.setCfgSckHalf_pwm (s : State) (h : BitVec 8) : (s.setCfgSckHalf h).pwm = s.pwm := rfl
@[simp] theorem State.setCfgSckHalf_err (s : State) (h : BitVec 8) : (s.setCfgSckHalf h).err = s.err := rfl
@[simp] theorem State.setCfgSckHalf_inputs (s : State) (h : BitVec 8) : (s.setCfgSckHalf h).inputs = s.inputs := rfl
@[simp] theorem State.setCfgSckHalf_cycle (s : State) (h : BitVec 8) : (s.setCfgSckHalf h).cycle = s.cycle := rfl

@[simp] theorem State.setCfgSlice_conf (s : State) (p : BitVec 16) : (s.setCfgSlice p).conf = { s.conf with cfgSlice := p } := rfl
@[simp] theorem State.setCfgSlice_deser (s : State) (p : BitVec 16) : (s.setCfgSlice p).deser = s.deser := rfl
@[simp] theorem State.setCfgSlice_pwm (s : State) (p : BitVec 16) : (s.setCfgSlice p).pwm = s.pwm := rfl
@[simp] theorem State.setCfgSlice_err (s : State) (p : BitVec 16) : (s.setCfgSlice p).err = s.err := rfl
@[simp] theorem State.setCfgSlice_inputs (s : State) (p : BitVec 16) : (s.setCfgSlice p).inputs = s.inputs := rfl
@[simp] theorem State.setCfgSlice_cycle (s : State) (p : BitVec 16) : (s.setCfgSlice p).cycle = s.cycle := rfl

@[simp] theorem State.setLocked_conf (s : State) : (s.setLocked).conf = { s.conf with locked := true } := rfl
@[simp] theorem State.setLocked_deser (s : State) : (s.setLocked).deser = s.deser := rfl
@[simp] theorem State.setLocked_pwm (s : State) : (s.setLocked).pwm = s.pwm := rfl
@[simp] theorem State.setLocked_err (s : State) : (s.setLocked).err = s.err := rfl
@[simp] theorem State.setLocked_inputs (s : State) : (s.setLocked).inputs = s.inputs := rfl
@[simp] theorem State.setLocked_cycle (s : State) : (s.setLocked).cycle = s.cycle := rfl

@[simp] theorem State.clearErr_conf (s : State) : (s.clearErr).conf = s.conf := rfl
@[simp] theorem State.clearErr_deser (s : State) : (s.clearErr).deser = s.deser := rfl
@[simp] theorem State.clearErr_pwm (s : State) : (s.clearErr).pwm = s.pwm := rfl
@[simp] theorem State.clearErr_err (s : State) : (s.clearErr).err = { cmdErr := false, errCode := .none } := rfl
@[simp] theorem State.clearErr_inputs (s : State) : (s.clearErr).inputs = s.inputs := rfl
@[simp] theorem State.clearErr_cycle (s : State) : (s.clearErr).cycle = s.cycle := rfl

@[simp] theorem State.setDeser_conf (s : State) (d : Deser) : (s.setDeser d).conf = s.conf := rfl
@[simp] theorem State.setDeser_deser (s : State) (d : Deser) : (s.setDeser d).deser = d := rfl
@[simp] theorem State.setDeser_pwm (s : State) (d : Deser) : (s.setDeser d).pwm = s.pwm := rfl
@[simp] theorem State.setDeser_err (s : State) (d : Deser) : (s.setDeser d).err = s.err := rfl
@[simp] theorem State.setDeser_inputs (s : State) (d : Deser) : (s.setDeser d).inputs = s.inputs := rfl
@[simp] theorem State.setDeser_cycle (s : State) (d : Deser) : (s.setDeser d).cycle = s.cycle := rfl

@[simp] theorem State.setPwm_conf (s : State) (p : Pwm) : (s.setPwm p).conf = s.conf := rfl
@[simp] theorem State.setPwm_deser (s : State) (p : Pwm) : (s.setPwm p).deser = s.deser := rfl
@[simp] theorem State.setPwm_pwm (s : State) (p : Pwm) : (s.setPwm p).pwm = p := rfl
@[simp] theorem State.setPwm_err (s : State) (p : Pwm) : (s.setPwm p).err = s.err := rfl
@[simp] theorem State.setPwm_inputs (s : State) (p : Pwm) : (s.setPwm p).inputs = s.inputs := rfl
@[simp] theorem State.setPwm_cycle (s : State) (p : Pwm) : (s.setPwm p).cycle = s.cycle := rfl

@[simp] theorem Pwm.setPend_actDir (p : Pwm) (d : Dir) (duty : BitVec 7) : (p.setPend d duty).actDir = p.actDir := rfl
@[simp] theorem Pwm.setPend_actDuty (p : Pwm) (d : Dir) (duty : BitVec 7) : (p.setPend d duty).actDuty = p.actDuty := rfl
@[simp] theorem Pwm.setPend_sliceCnt (p : Pwm) (d : Dir) (duty : BitVec 7) : (p.setPend d duty).sliceCnt = p.sliceCnt := rfl
@[simp] theorem Pwm.setPend_tickCnt (p : Pwm) (d : Dir) (duty : BitVec 7) : (p.setPend d duty).tickCnt = p.tickCnt := rfl
@[simp] theorem Pwm.setPend_pendValid (p : Pwm) (d : Dir) (duty : BitVec 7) : (p.setPend d duty).pendValid = true := rfl
@[simp] theorem Pwm.setPend_pendDir (p : Pwm) (d : Dir) (duty : BitVec 7) : (p.setPend d duty).pendDir = d := rfl
@[simp] theorem Pwm.setPend_pendDuty (p : Pwm) (d : Dir) (duty : BitVec 7) : (p.setPend d duty).pendDuty = duty := rfl
@[simp] theorem Pwm.setPend_lastDir (p : Pwm) (d : Dir) (duty : BitVec 7) : (p.setPend d duty).lastDir = p.lastDir := rfl
@[simp] theorem Pwm.setPend_stopCnt (p : Pwm) (d : Dir) (duty : BitVec 7) : (p.setPend d duty).stopCnt = p.stopCnt := rfl

@[simp] theorem Pwm.clearPend_actDir (p : Pwm) : (p.clearPend).actDir = p.actDir := rfl
@[simp] theorem Pwm.clearPend_actDuty (p : Pwm) : (p.clearPend).actDuty = p.actDuty := rfl
@[simp] theorem Pwm.clearPend_sliceCnt (p : Pwm) : (p.clearPend).sliceCnt = p.sliceCnt := rfl
@[simp] theorem Pwm.clearPend_tickCnt (p : Pwm) : (p.clearPend).tickCnt = p.tickCnt := rfl
@[simp] theorem Pwm.clearPend_pendValid (p : Pwm) : (p.clearPend).pendValid = false := rfl
@[simp] theorem Pwm.clearPend_pendDir (p : Pwm) : (p.clearPend).pendDir = .stop := rfl
@[simp] theorem Pwm.clearPend_pendDuty (p : Pwm) : (p.clearPend).pendDuty = 0 := rfl
@[simp] theorem Pwm.clearPend_lastDir (p : Pwm) : (p.clearPend).lastDir = p.lastDir := rfl
@[simp] theorem Pwm.clearPend_stopCnt (p : Pwm) : (p.clearPend).stopCnt = p.stopCnt := rfl

@[simp] theorem Pwm.driveOff_actDir (p : Pwm) : (p.driveOff).actDir = .stop := rfl
@[simp] theorem Pwm.driveOff_actDuty (p : Pwm) : (p.driveOff).actDuty = 0 := rfl
@[simp] theorem Pwm.driveOff_sliceCnt (p : Pwm) : (p.driveOff).sliceCnt = 0 := rfl
@[simp] theorem Pwm.driveOff_tickCnt (p : Pwm) : (p.driveOff).tickCnt = 0 := rfl
@[simp] theorem Pwm.driveOff_pendValid (p : Pwm) : (p.driveOff).pendValid = p.pendValid := rfl
@[simp] theorem Pwm.driveOff_pendDir (p : Pwm) : (p.driveOff).pendDir = p.pendDir := rfl
@[simp] theorem Pwm.driveOff_pendDuty (p : Pwm) : (p.driveOff).pendDuty = p.pendDuty := rfl
@[simp] theorem Pwm.driveOff_lastDir (p : Pwm) : (p.driveOff).lastDir = p.lastDir := rfl
@[simp] theorem Pwm.driveOff_stopCnt (p : Pwm) : (p.driveOff).stopCnt = p.stopCnt := rfl

@[simp] theorem Pwm.markDriveEnd_actDir (p : Pwm) : (p.markDriveEnd).actDir = p.actDir := rfl
@[simp] theorem Pwm.markDriveEnd_actDuty (p : Pwm) : (p.markDriveEnd).actDuty = p.actDuty := rfl
@[simp] theorem Pwm.markDriveEnd_sliceCnt (p : Pwm) : (p.markDriveEnd).sliceCnt = p.sliceCnt := rfl
@[simp] theorem Pwm.markDriveEnd_tickCnt (p : Pwm) : (p.markDriveEnd).tickCnt = p.tickCnt := rfl
@[simp] theorem Pwm.markDriveEnd_pendValid (p : Pwm) : (p.markDriveEnd).pendValid = p.pendValid := rfl
@[simp] theorem Pwm.markDriveEnd_pendDir (p : Pwm) : (p.markDriveEnd).pendDir = p.pendDir := rfl
@[simp] theorem Pwm.markDriveEnd_pendDuty (p : Pwm) : (p.markDriveEnd).pendDuty = p.pendDuty := rfl
@[simp] theorem Pwm.markDriveEnd_lastDir (p : Pwm) : (p.markDriveEnd).lastDir = LastDir.ofDir p.actDir := rfl
@[simp] theorem Pwm.markDriveEnd_stopCnt (p : Pwm) : (p.markDriveEnd).stopCnt = 0 := rfl

/-! Where an input is placed, this cycle's input and what stays. -/

@[simp] theorem State.presentWrite_input (s : State) (off : BitVec 5) (w : Word) :
    (s.presentWrite off w).input =
      { s.input with rst := false, busWr := true, busRd := false, busAddr := off, busWdata := w } := rfl
@[simp] theorem State.presentWrite_conf (s : State) (off : BitVec 5) (w : Word) : (s.presentWrite off w).conf = s.conf := rfl
@[simp] theorem State.presentWrite_deser (s : State) (off : BitVec 5) (w : Word) : (s.presentWrite off w).deser = s.deser := rfl
@[simp] theorem State.presentWrite_pwm (s : State) (off : BitVec 5) (w : Word) : (s.presentWrite off w).pwm = s.pwm := rfl
@[simp] theorem State.presentWrite_err (s : State) (off : BitVec 5) (w : Word) : (s.presentWrite off w).err = s.err := rfl
@[simp] theorem State.presentWrite_cycle (s : State) (off : BitVec 5) (w : Word) : (s.presentWrite off w).cycle = s.cycle := rfl
@[simp] theorem State.presentWrite_tail (s : State) (off : BitVec 5) (w : Word) : (s.presentWrite off w).inputs.tail = s.inputs.tail := rfl
@[simp] theorem State.presentWrite_dout (s : State) (off : BitVec 5) (w : Word) : (s.presentWrite off w).dout = s.dout := rfl

end Sys2Proof.Machine
end

