-- ==== Sys2Proof/Laws/Commands.lean ====
section
/-! SUPPORT. What a command phase can do: it always answers a next state, it leaves the inputs and the other engine alone, and its APPLY intake ends in one of four shapes. -/

namespace Sys2Proof.Machine

/-! ### Rejection -/

@[simp] theorem State.recordError_conf (s : State) (c : ErrCode) : (s.recordError c).conf = s.conf := by
  unfold State.recordError; split <;> rfl

@[simp] theorem State.recordError_deser (s : State) (c : ErrCode) : (s.recordError c).deser = s.deser := by
  unfold State.recordError; split <;> rfl

@[simp] theorem State.recordError_pwm (s : State) (c : ErrCode) : (s.recordError c).pwm = s.pwm := by
  unfold State.recordError; split <;> rfl

@[simp] theorem State.recordError_inputs (s : State) (c : ErrCode) : (s.recordError c).inputs = s.inputs := by
  unfold State.recordError; split <;> rfl

@[simp] theorem State.recordError_cycle (s : State) (c : ErrCode) : (s.recordError c).cycle = s.cycle := by
  unfold State.recordError; split <;> rfl

/-- The record after a rejection: the earlier code, or this one where none was set. -/
theorem State.recordError_err (s : State) (c : ErrCode) :
    (s.recordError c).err = if s.err.cmdErr then s.err else { cmdErr := true, errCode := c } := by
  unfold State.recordError
  cases h : s.err.cmdErr <;> simp

/-- A rejected APPLY is a recorded error over a stopped PWM generator. -/
theorem State.rejectApply_eq (s : State) (c : ErrCode) :
    s.rejectApply c = (s.recordError c).setPwm s.pwm.stopIntake := by
  simp [State.rejectApply]

/-- A check's outcome: the recorded error, or the accepted state. -/
theorem checked_eq (code : Option ErrCode) (s t : State) :
    checked code s t = .next (match code with | some c => s.recordError c | none => t) := by
  cases code <;> rfl

/-! ### The PWM intake -/

/-- `StopIntake` field by field. -/
theorem Pwm.stopIntake_eq (p : Pwm) :
    p.stopIntake =
      { actDir := .stop, actDuty := 0, sliceCnt := 0, tickCnt := 0, pendValid := false, pendDir := .stop,
        pendDuty := 0, lastDir := if p.actDir = .stop then p.lastDir else LastDir.ofDir p.actDir,
        stopCnt := if p.actDir = .stop then p.stopCnt else 0 } := by
  unfold Pwm.stopIntake
  by_cases h : p.actDir = .stop <;> simp [h, Pwm.clearPend, Pwm.driveOff, Pwm.markDriveEnd]

/-- `Reverse` field by field. -/
theorem Pwm.reverse_eq (p : Pwm) (d : Dir) (duty : BitVec 7) :
    p.reverse d duty =
      { actDir := .stop, actDuty := 0, sliceCnt := 0, tickCnt := 0, pendValid := true, pendDir := d,
        pendDuty := duty, lastDir := LastDir.ofDir p.actDir, stopCnt := 0 } := rfl

/-- The four shapes of an intake's result: stopped, a command set pending beside the drive, the pending command
cleared, or reversed. -/
theorem Pwm.applyIntake_cases (p : Pwm) (d : Dir) (duty : BitVec 7) :
    p.applyIntake d duty = p.stopIntake ∨
      (d ≠ .stop ∧ duty ≠ 0#7 ∧
        ((p.applyIntake d duty = p.setPend d duty ∧ (p.actDir = .stop ∨ d = p.actDir)) ∨
          p.applyIntake d duty = p.clearPend ∨
            (p.applyIntake d duty = p.reverse d duty ∧ p.actDir ≠ .stop ∧ d ≠ p.actDir))) := by
  unfold Pwm.applyIntake
  split
  · exact .inl rfl
  · rename_i h
    push Not at h
    refine .inr ⟨h.1, h.2, ?_⟩
    split
    · exact .inl ⟨rfl, .inl ‹_›⟩
    · split
      · exact .inr (.inl rfl)
      · split
        · exact .inl ⟨rfl, .inr ‹_›⟩
        · exact .inr (.inr ⟨rfl, ‹_›, ‹_›⟩)

/-! ### The command phase -/

/-- An accepted APPLY is locked, has a legal duty and the direction its field names. -/
theorem applyCheck_ok {s : State} {dir : DirField} {duty : BitVec 7} {d : Dir} (h : applyCheck s dir duty = .ok d) :
    s.conf.locked = true ∧ direction dir = some d ∧ duty.toNat ≤ 100 := by
  unfold applyCheck wfDuty at h
  cases hl : s.conf.locked <;> cases hd : direction dir <;> simp_all
  split at h <;> simp_all

/-- APPLY with legal operands after the lock passes its check. -/
theorem applyCheck_of_legal {s : State} {dir : DirField} {duty : BitVec 7} {d : Dir} (hl : s.conf.locked = true)
    (hd : direction dir = some d) (hD : duty.toNat ≤ 100) : applyCheck s dir duty = .ok d := by
  simp [applyCheck, wfDuty, hl, hd, hD]

/-- A rejected APPLY has an error code. -/
theorem applyCheck_error {s : State} {dir : DirField} {duty : BitVec 7} {c : ErrCode}
    (h : applyCheck s dir duty = .error c) : c ≠ .none := by
  unfold applyCheck at h
  cases hl : s.conf.locked <;> cases hd : direction dir <;> cases hw : wfDuty duty <;> simp_all <;> subst h <;> simp

/-- Everything a command phase can do to a state. -/
inductive Effect (s : State) : State → Prop
  /-- NOP, or no command. -/
  | same : Effect s s
  /-- CLEAR. -/
  | cleared : Effect s s.clearErr
  /-- A rejected command other than APPLY. -/
  | rejected (c : ErrCode) : c ≠ .none → Effect s (s.recordError c)
  /-- A rejected APPLY. -/
  | rejectedApply (c : ErrCode) : c ≠ .none → Effect s ((s.recordError c).setPwm s.pwm.stopIntake)
  /-- An accepted CFG_EXTRA. -/
  | extra (n : BitVec 2) : s.conf.locked = false → Effect s (s.setCfgExtra n)
  /-- An accepted CFG_TIMEOUT. -/
  | timeout (v : BitVec 24) : s.conf.locked = false → Effect s (s.setCfgTimeout v)
  /-- An accepted CFG_SCK. -/
  | sckHalf (h : BitVec 8) : s.conf.locked = false → Effect s (s.setCfgSckHalf h)
  /-- An accepted CFG_PWM. -/
  | slice (p : BitVec 16) : s.conf.locked = false → Effect s (s.setCfgSlice p)
  /-- An accepted LOCK. -/
  | locked : s.conf.locked = false → s.conf.cfgExtra ≠ 0#2 → s.conf.cfgSckHalf ≠ 0#8 → s.conf.cfgSlice ≠ 0#16 →
      Effect s s.setLocked
  /-- An accepted READ. -/
  | readStarted : s.conf.locked = true → s.deser.rdState = .idle → Effect s (s.setDeser s.deser.startRead)
  /-- An accepted APPLY. -/
  | applied (d : Dir) (duty : BitVec 7) : s.conf.locked = true → duty.toNat ≤ 100 →
      Effect s (s.setPwm (s.pwm.applyIntake d duty))

/-- A checked command does what an accepted one does, or records the check's error. -/
theorem checked_effect {code : Option ErrCode} {s u t : State} (h : checked code s u = .next t)
    (hc : ∀ c, code = some c → c ≠ .none) (ha : code = none → Effect s u) : Effect s t := by
  cases code with
  | none => cases h; exact ha rfl
  | some c => cases h; exact .rejected c (hc c rfl)

theorem configCheck_error {s : State} {legal : Bool} (c : ErrCode) (h : configCheck s legal = some c) : c ≠ .none := by
  unfold configCheck at h
  split at h <;> [skip; split at h] <;> simp at h <;> subst h <;> decide

theorem configCheck_accepts {s : State} {legal : Bool} (h : configCheck s legal = none) :
    s.conf.locked = false ∧ legal = true := by
  unfold configCheck at h
  cases hl : s.conf.locked <;> cases legal <;> simp_all

theorem lockCheck_error {s : State} (c : ErrCode) (h : lockCheck s = some c) : c ≠ .none := by
  unfold lockCheck at h
  split at h <;> [skip; split at h] <;> simp at h <;> subst h <;> decide

theorem lockCheck_accepts {s : State} (h : lockCheck s = none) :
    s.conf.locked = false ∧ s.conf.cfgExtra ≠ 0#2 ∧ s.conf.cfgSckHalf ≠ 0#8 ∧ s.conf.cfgSlice ≠ 0#16 := by
  unfold lockCheck at h
  cases hl : s.conf.locked <;> simp_all

theorem readCheck_error {s : State} (c : ErrCode) (h : readCheck s = some c) : c ≠ .none := by
  unfold readCheck at h
  split at h <;> [skip; split at h] <;> simp at h <;> subst h <;> decide

theorem readCheck_accepts {s : State} (h : readCheck s = none) : s.conf.locked = true ∧ s.deser.rdState = .idle := by
  unfold readCheck at h
  cases hl : s.conf.locked <;> simp_all

/-- Everything `exec` can do. -/
theorem exec_effect {i : Instr} {s t : State} (h : exec i s = .next t) : Effect s t := by
  cases i with
  | nop => cases h; exact .same
  | clear => cases h; exact .cleared
  | cfgExtra n => exact checked_effect h configCheck_error fun hn => .extra n (configCheck_accepts hn).1
  | cfgTimeout v => exact checked_effect h configCheck_error fun hn => .timeout v (configCheck_accepts hn).1
  | cfgSck v => exact checked_effect h configCheck_error fun hn => .sckHalf v (configCheck_accepts hn).1
  | cfgPwm p => exact checked_effect h configCheck_error fun hn => .slice p (configCheck_accepts hn).1
  | lock =>
    exact checked_effect h lockCheck_error fun hn =>
      have ⟨h1, h2, h3, h4⟩ := lockCheck_accepts hn
      .locked h1 h2 h3 h4
  | read =>
    exact checked_effect h readCheck_error fun hn => .readStarted (readCheck_accepts hn).1 (readCheck_accepts hn).2
  | apply dir duty =>
    simp only [exec, execApply] at h
    cases hc : applyCheck s dir duty with
    | error c =>
      rw [hc] at h; cases h
      rw [State.rejectApply_eq]
      exact .rejectedApply c (applyCheck_error hc)
    | ok d =>
      rw [hc] at h; cases h
      obtain ⟨hl, -, hD⟩ := applyCheck_ok hc
      exact .applied d duty hl hD

/-- Everything the command phase can do. -/
theorem commandPhase_effect {w : Word} {s t : State} (h : commandPhase w s = .next t) : Effect s t := by
  unfold commandPhase at h
  cases hd : decode w with
  | ok i => rw [hd] at h; exact exec_effect h
  | error e =>
    rw [hd] at h; cases h
    cases e with
    | reservedOpcode => exact .rejected _ (by decide)
    | reservedBits op =>
      by_cases ho : op = .apply
      · simp only [rejectWord, ho, if_true, State.rejectApply_eq]; exact .rejectedApply _ (by decide)
      · simp only [rejectWord, ho, if_false]; exact .rejected _ (by decide)

/-- A checked command always answers a next state. -/
theorem checked_next (code : Option ErrCode) (s t : State) : ∃ u, checked code s t = .next u := by
  cases code <;> exact ⟨_, rfl⟩

/-- `exec` always answers a next state. -/
theorem exec_next (i : Instr) (s : State) : ∃ t, exec i s = .next t := by
  cases i with
  | nop => exact ⟨_, rfl⟩
  | clear => exact ⟨_, rfl⟩
  | cfgExtra n => exact checked_next _ _ _
  | cfgTimeout v => exact checked_next _ _ _
  | cfgSck v => exact checked_next _ _ _
  | cfgPwm p => exact checked_next _ _ _
  | lock => exact checked_next _ _ _
  | read => exact checked_next _ _ _
  | apply dir duty =>
    simp only [exec, execApply]
    cases applyCheck s dir duty <;> exact ⟨_, rfl⟩

/-- The command phase always answers a next state. -/
theorem commandPhase_next (w : Word) (s : State) : ∃ t, commandPhase w s = .next t := by
  unfold commandPhase
  cases decode w with
  | ok i => exact exec_next i s
  | error e => exact ⟨_, rfl⟩

/-- No command touches the model's own fields. -/
theorem Effect.env {s t : State} (h : Effect s t) : t.inputs = s.inputs ∧ t.cycle = s.cycle := by
  cases h <;> simp

/-- A command changes the deserializer only from IDLE, and only by READ's start. -/
theorem Effect.deser {s t : State} (h : Effect s t) :
    t.deser = s.deser ∨ (s.deser.rdState = .idle ∧ s.conf.locked = true ∧ t.deser = s.deser.startRead) := by
  cases h with
  | readStarted hl hi => exact .inr ⟨hi, hl, rfl⟩
  | _ => exact .inl (by simp)

/-- Once locked, no command changes the configuration. -/
theorem Effect.conf_of_locked {s t : State} (h : Effect s t) (hl : s.conf.locked = true) : t.conf = s.conf := by
  cases h <;> simp_all

end Sys2Proof.Machine
end

