-- ==== Sys2Proof/Laws/Cycle.lean ====
section
/-! SUPPORT. What a step can do, said once: reset, or a command phase followed by the engine phase; and how runs follow their inputs. -/

namespace Sys2Proof.Machine

/-- The state after the command phase of this cycle: this state where no command is presented. -/
def State.postCommand (s : State) : State :=
  match s.input.command with
  | none => s
  | some w =>
    match commandPhase w s with
    | .next u => u
    | _ => s

theorem State.postCommand_none {s : State} (h : s.input.command = none) : s.postCommand = s := by
  simp [State.postCommand, h]

theorem State.postCommand_some {s u : State} {w : Word} (h : s.input.command = some w)
    (hu : commandPhase w s = .next u) : s.postCommand = u := by
  simp [State.postCommand, h, hu]

/-- The post-command state is this state, or what the command phase answered. -/
theorem State.postCommand_cases (s : State) :
    (s.input.command = none ∧ s.postCommand = s) ∨
      ∃ w, s.input.command = some w ∧ commandPhase w s = .next s.postCommand := by
  cases h : s.input.command with
  | none => exact .inl ⟨rfl, State.postCommand_none h⟩
  | some w =>
    obtain ⟨u, hu⟩ := commandPhase_next w s
    exact .inr ⟨w, rfl, by rw [State.postCommand_some h hu, hu]⟩

/-- The post-command state is the effect of a command phase. -/
theorem State.postCommand_effect (s : State) : Effect s s.postCommand := by
  obtain ⟨-, h⟩ | ⟨w, -, h⟩ := s.postCommand_cases
  · rw [h]; exact .same
  · exact commandPhase_effect h

/-! ### The engine phase field by field -/

@[simp] theorem enginePhase_conf (s t : State) : (enginePhase s t).conf = t.conf := rfl
@[simp] theorem enginePhase_err (s t : State) : (enginePhase s t).err = t.err := rfl
@[simp] theorem enginePhase_pwm (s t : State) : (enginePhase s t).pwm = t.pwm.advance t.conf := rfl
@[simp] theorem enginePhase_inputs (s t : State) : (enginePhase s t).inputs = s.inputs.tail := rfl
@[simp] theorem enginePhase_cycle (s t : State) : (enginePhase s t).cycle = s.cycle + 1 := rfl

theorem enginePhase_deser_busy {s : State} (t : State) (h : s.deser.rdState ≠ .idle) :
    (enginePhase s t).deser = s.deser.advance s.conf s.dout := by simp [enginePhase, h]

theorem enginePhase_deser_idle {s : State} (t : State) (h : s.deser.rdState = .idle) :
    (enginePhase s t).deser = t.deser := by simp [enginePhase, h]

/-! ### Steps -/

/-- A cycle with an admitted input steps through its command phase to its engine phase. -/
theorem step_admitted {s : State} (h : s.input.admitted) : step s = .next (enginePhase s s.postCommand) := by
  obtain ⟨hr, hb⟩ := h
  unfold step cycleStep
  obtain ⟨hc, hp⟩ | ⟨w, hc, hp⟩ := s.postCommand_cases
  · simp [hr, hb, hc, hp]
  · simp [hr, hb, hc, hp, thenEngines]

/-- A cycle with reset. -/
theorem step_reset {s : State} (h : s.input.rst = true) : step s = .next (resetCycle s) := by
  simp [step, cycleStep, h]

/-- Everything a step can answer. -/
theorem step_cases {s t : State} (h : step s = .next t) :
    (s.input.rst = true ∧ t = resetCycle s) ∨ (s.input.admitted ∧ t = enginePhase s s.postCommand) := by
  cases hr : s.input.rst
  · cases hb : s.input.bothStrobes
    · exact .inr ⟨⟨hr, hb⟩, by simpa [step_admitted ⟨hr, hb⟩] using h.symm⟩
    · simp [step, cycleStep, hr, hb] at h
  · exact .inl ⟨rfl, by simpa [step_reset hr] using h.symm⟩

/-- Every step consumes one input and counts one cycle. -/
theorem step_inputs {s t : State} (h : step s = .next t) : t.inputs = s.inputs.tail ∧ t.cycle = s.cycle + 1 := by
  obtain ⟨-, rfl⟩ | ⟨-, rfl⟩ := step_cases h <;> exact ⟨rfl, rfl⟩

/-! ### Runs -/

theorem after_zero (s : State) : s.after 0 = some s := rfl

theorem after_succ {s t : State} (h : step s = .next t) (k : Nat) : s.after (k + 1) = t.after k := by
  simp [State.after, h]

/-- A run of `k + 1` cycles starts with a step. -/
theorem after_succ_cases {s u : State} {k : Nat} (h : s.after (k + 1) = some u) :
    ∃ t, step s = .next t ∧ t.after k = some u := by
  unfold State.after at h
  split at h
  · exact ⟨_, ‹_›, h⟩
  · cases h

/-- A run splits where one likes. -/
theorem after_add (s : State) (j k : Nat) : s.after (j + k) = (s.after j).bind (State.after k) := by
  induction j generalizing s with
  | zero => simp [State.after]
  | succ j ih =>
    rw [Nat.succ_add]
    simp only [State.after]
    cases step s with
    | next t => exact ih t
    | fault _ => rfl
    | refused _ => rfl

/-- The last step of a run. -/
theorem after_snoc (s : State) (k : Nat) :
    s.after (k + 1) = (s.after k).bind fun u => match step u with | .next t => some t | _ => none := by
  rw [after_add]
  congr 1

theorem inputAt_zero (s : State) : s.inputAt 0 = s.input := by
  cases h : s.inputs <;> simp [State.inputAt, State.input, h]

theorem doutAt_zero (s : State) : s.doutAt 0 = s.dout := by simp [State.doutAt, State.dout, inputAt_zero]

/-- After a step the inputs still to come have moved up by one. -/
theorem inputAt_step {s t : State} (h : step s = .next t) (k : Nat) : t.inputAt k = s.inputAt (k + 1) := by
  simp [State.inputAt, (step_inputs h).1]

theorem doutAt_step {s t : State} (h : step s = .next t) (k : Nat) : t.doutAt k = s.doutAt (k + 1) := by
  simp [State.doutAt, inputAt_step h, (step_inputs h).2]
  congr 2; omega

/-- `k` cycles into a run, the inputs still to come have moved up by `k`. -/
theorem inputAt_after {s u : State} {k : Nat} (h : s.after k = some u) (j : Nat) : u.inputAt j = s.inputAt (k + j) := by
  induction k generalizing s with
  | zero => cases h; simp
  | succ k ih =>
    obtain ⟨t, ht, hu⟩ := after_succ_cases h
    rw [ih hu, inputAt_step ht]
    congr 1; omega

/-- An undisturbed run goes on for as long as it is undisturbed. -/
theorem after_of_undisturbed {s : State} {n : Nat} (h : s.Undisturbed n) : ∀ k, k ≤ n → ∃ u, s.after k = some u := by
  intro k
  induction k generalizing s n with
  | zero => exact fun _ => ⟨s, rfl⟩
  | succ k ih =>
    intro hk
    have h0 := h 0 (by omega)
    rw [inputAt_zero] at h0
    have hs := step_admitted h0
    obtain ⟨u, hu⟩ := ih (s := enginePhase s s.postCommand) (n := n - 1)
      (fun j hj => by rw [inputAt_step hs]; exact h (j + 1) (by omega)) (by omega)
    exact ⟨u, by rw [after_succ hs, hu]⟩

end Sys2Proof.Machine
end

