-- ==== Sys2Proof/Laws/Access.lean ====
section
/-! SUPPORT. What one bus access does to a cycle: no access, a read, a write elsewhere and a command word, each as one equation of the step. -/

namespace Sys2Proof.Machine

/-- The record of a rejection does not depend on the inputs to come. -/
theorem State.recordError_withInputs (s : State) (l : List Input) (c : ErrCode) :
    State.recordError { s with inputs := l } c = { s.recordError c with inputs := l } := by
  unfold State.recordError; dsimp; split <;> rfl

theorem checked_withInputs (code : Option ErrCode) (s t u : State) (l : List Input) (h : checked code s t = .next u) :
    checked code { s with inputs := l } { t with inputs := l } = .next { u with inputs := l } := by
  cases code with
  | none => cases h; rfl
  | some c =>
    cases h
    simp only [checked, State.recordError_withInputs]

/-- A command does not depend on the inputs to come. -/
theorem exec_withInputs {i : Instr} {s t : State} (l : List Input) (h : exec i s = .next t) :
    exec i { s with inputs := l } = .next { t with inputs := l } := by
  cases i with
  | nop => cases h; rfl
  | clear => cases h; rfl
  | cfgExtra n => exact checked_withInputs _ _ _ _ l h
  | cfgTimeout v => exact checked_withInputs _ _ _ _ l h
  | cfgSck v => exact checked_withInputs _ _ _ _ l h
  | cfgPwm p => exact checked_withInputs _ _ _ _ l h
  | lock => exact checked_withInputs _ _ _ _ l h
  | read => exact checked_withInputs _ _ _ _ l h
  | apply dir duty =>
    simp only [exec, execApply] at h ⊢
    have he : applyCheck { s with inputs := l } dir duty = applyCheck s dir duty := rfl
    rw [he]
    cases hc : applyCheck s dir duty with
    | ok d => rw [hc] at h; cases h; rfl
    | error c =>
      rw [hc] at h; cases h
      simp [State.rejectApply_eq, State.recordError_withInputs, State.setPwm]

/-- The command phase does not depend on the inputs to come. -/
theorem commandPhase_withInputs {w : Word} {s t : State} (l : List Input) (h : commandPhase w s = .next t) :
    commandPhase w { s with inputs := l } = .next { t with inputs := l } := by
  unfold commandPhase at h ⊢
  cases hd : decode w with
  | ok i => rw [hd] at h; exact exec_withInputs l h
  | error e =>
    rw [hd] at h; cases h
    cases e with
    | reservedOpcode => simp [rejectWord, State.recordError_withInputs]
    | reservedBits op =>
      by_cases ho : op = .apply <;>
        simp [rejectWord, ho, State.recordError_withInputs, State.rejectApply_eq, State.setPwm]

/-- The cycle with no bus access. -/
theorem step_noAccess (s : State) : step s.noAccess = .next (enginePhase s s) := by
  rw [step_admitted ⟨rfl, rfl⟩]; rfl

/-- The cycle of a read. -/
theorem step_presentRead (s : State) (off : BitVec 5) : step (s.presentRead off) = .next (enginePhase s s) := by
  rw [step_admitted ⟨rfl, rfl⟩]; rfl

/-- The cycle of a write to an offset other than CMD's. -/
theorem step_presentWrite_other (s : State) {off : BitVec 5} (w : Word) (h : off ≠ 0x00#5) :
    step (s.presentWrite off w) = .next (enginePhase s s) := by
  rw [step_admitted ⟨rfl, rfl⟩, State.postCommand_none (by simp [Input.command, h])]; rfl

/-- The cycle of a command word. -/
theorem step_presentWord {s u : State} {w : Word} (h : commandPhase w s = .next u) :
    step (s.presentWord w) = .next (enginePhase s u) := by
  have hp := commandPhase_withInputs (s.presentWord w).inputs h
  rw [step_admitted ⟨rfl, rfl⟩]
  have : (s.presentWord w).postCommand = { u with inputs := (s.presentWord w).inputs } :=
    State.postCommand_some (w := w) rfl hp
  rw [this]; rfl

/-- A word of a known opcode with a reserved bit set is rejected with code 2. -/
theorem commandPhase_reservedBits {w : Word} {op : Opcode} (s : State)
    (ho : Opcode.ofBits (w.extractLsb' 28 4) = some op) (hm : w &&& op.reservedMask ≠ 0#32) :
    commandPhase w s = .next (rejectWord (.reservedBits op) s) := by
  simp [commandPhase, decode, field, ho, hm]

/-- Bits of a word that the mask covers and that are not all 0 make a reserved bit. -/
theorem masked_of_field {w mask : Word} (lo n : Nat) (hm : w.extractLsb' lo n ≠ 0#n)
    (hc : ∀ i, i < n → mask.getLsbD (lo + i) = true) : w &&& mask ≠ 0#32 := by
  intro h0
  apply hm
  apply BitVec.eq_of_getLsbD_eq
  intro i hi
  have h : (w &&& mask).getLsbD (lo + i) = false := by simp [h0]
  rw [BitVec.getLsbD_and, hc i hi, Bool.and_true] at h
  simp [h]

end Sys2Proof.Machine
end

