-- ==== Sys2Proof/Laws/Engines.lean ====
section
/-! SUPPORT. The engines case by case: each lemma gives the whole of an engine's next fields in one case of its rule. -/

namespace Sys2Proof.Machine

theorem LastDir.ofDir_inj (d e : Dir) : LastDir.ofDir d = LastDir.ofDir e ↔ d = e := by
  cases d <;> cases e <;> decide

/-! ### The PWM generator (41_pwm_generator.md R112) -/

/-- When a pending drive may start. -/
theorem Pwm.mayStart_iff (c : Conf) (p : Pwm) :
    p.mayStart c = true ↔
      p.pendValid = true ∧ (LastDir.ofDir p.pendDir = p.lastDir ∨ c.period ≤ p.stopCnt.toNat) := by
  simp [Pwm.mayStart]

/-- In STOP with a drive that may start: it starts. -/
theorem Pwm.advance_starts {c : Conf} {p : Pwm} (hs : p.actDir = .stop) (hm : p.mayStart c = true) :
    p.advance c =
      { actDir := p.pendDir, actDuty := p.pendDuty, sliceCnt := 0, tickCnt := 0, pendValid := false, pendDir := .stop,
        pendDuty := 0, lastDir := LastDir.ofDir p.pendDir, stopCnt := p.stopCnt } := by
  simp [Pwm.advance, Pwm.advanceStop, hs, hm, Pwm.clearPend]

/-- In STOP with no drive that may start: one more STOP cycle. -/
theorem Pwm.advance_holds {c : Conf} {p : Pwm} (hs : p.actDir = .stop) (hm : ¬p.mayStart c = true) :
    p.advance c = { p with stopCnt := sat23 (p.stopCnt.toNat + 1) } := by
  simp [Pwm.advance, Pwm.advanceStop, hs, hm]

/-- Driving, inside a slice. -/
theorem Pwm.advance_tick {c : Conf} {p : Pwm} (hs : p.actDir ≠ .stop) (ht : p.tickCnt.toNat + 1 < c.cfgSlice.toNat) :
    p.advance c = { p with tickCnt := p.tickCnt + 1 } := by
  simp [Pwm.advance, Pwm.advanceDrive, hs, ht]

/-- Driving, at the end of a slice other than the last. -/
theorem Pwm.advance_slice {c : Conf} {p : Pwm} (hs : p.actDir ≠ .stop)
    (ht : ¬p.tickCnt.toNat + 1 < c.cfgSlice.toNat) (hl : p.sliceCnt < 99#7) :
    p.advance c = { p with tickCnt := 0, sliceCnt := p.sliceCnt + 1 } := by
  simp [Pwm.advance, Pwm.advanceDrive, hs, ht, hl]

/-- Driving, at the period boundary: a pending duty is adopted. -/
theorem Pwm.advance_boundary {c : Conf} {p : Pwm} (hs : p.actDir ≠ .stop)
    (ht : ¬p.tickCnt.toNat + 1 < c.cfgSlice.toNat) (hl : ¬p.sliceCnt < 99#7) :
    p.advance c =
      { p with
        tickCnt := 0, sliceCnt := 0, actDuty := if p.pendValid then p.pendDuty else p.actDuty,
        pendValid := false, pendDir := if p.pendValid then .stop else p.pendDir,
        pendDuty := if p.pendValid then 0 else p.pendDuty } := by
  cases hv : p.pendValid <;> simp [Pwm.advance, Pwm.advanceDrive, Pwm.boundary, Pwm.clearPend, hs, ht, hl, hv]

/-- A drive keeps its direction, its last direction and its stop count for as long as no command takes it off. -/
theorem Pwm.advance_drive_keeps {c : Conf} {p : Pwm} (hs : p.actDir ≠ .stop) :
    (p.advance c).actDir = p.actDir ∧ (p.advance c).lastDir = p.lastDir ∧ (p.advance c).stopCnt = p.stopCnt := by
  by_cases ht : p.tickCnt.toNat + 1 < c.cfgSlice.toNat
  · rw [Pwm.advance_tick hs ht]; exact ⟨rfl, rfl, rfl⟩
  · by_cases hl : p.sliceCnt < 99#7
    · rw [Pwm.advance_slice hs ht hl]; exact ⟨rfl, rfl, rfl⟩
    · rw [Pwm.advance_boundary hs ht hl]; exact ⟨rfl, rfl, rfl⟩

/-- The saturating count as a number. -/
theorem sat23_toNat (n : Nat) : (sat23 n).toNat = min n (2 ^ 23 - 1) := by
  unfold sat23
  rw [BitVec.toNat_ofNat, Nat.mod_eq_of_lt]
  omega

/-! ### The deserializer (40_adc_deserializer.md R82 to R88) -/

theorem Deser.advance_wait {c : Conf} {d : Deser} (b : Bool) (h : d.rdState = .wait) :
    d.advance c b =
      if b = false then { d with rdState := .high, halfCnt := 0 }
      else if d.waitCnt = c.cfgTimeout then { d with rdState := .idle, nrdy := true }
      else { d with waitCnt := d.waitCnt + 1 } := by
  simp only [Deser.advance, h, Deser.advanceWait]

/-- HIGH or LOW, a cycle of the phase other than the last. -/
theorem Deser.advance_phase {c : Conf} {d : Deser} (b : Bool) (h : d.rdState = .high ∨ d.rdState = .low)
    (hp : d.halfCnt.toNat + 1 < c.cfgSckHalf.toNat) : d.advance c b = { d with halfCnt := d.halfCnt + 1 } := by
  obtain h | h := h <;> simp [Deser.advance, h, Deser.advanceHigh, Deser.advanceLow, Deser.phaseGoesOn, hp]

/-- HIGH, the last cycle: the falling edge. -/
theorem Deser.advance_fall {c : Conf} {d : Deser} (b : Bool) (h : d.rdState = .high)
    (hp : ¬d.halfCnt.toNat + 1 < c.cfgSckHalf.toNat) :
    d.advance c b =
      { d with
        rdState := .low, halfCnt := 0, acc := if d.pulseCnt < 24#5 then shiftIn d.acc b else d.acc,
        pulseCnt := d.pulseCnt + 1 } := by
  simp [Deser.advance, h, Deser.advanceHigh, Deser.phaseGoesOn, hp]

/-- LOW, the last cycle, more pulses due: the next pulse rises. -/
theorem Deser.advance_rise {c : Conf} {d : Deser} (b : Bool) (h : d.rdState = .low)
    (hp : ¬d.halfCnt.toNat + 1 < c.cfgSckHalf.toNat) (hm : d.pulseCnt.toNat < c.pulses) :
    d.advance c b = { d with rdState := .high, halfCnt := 0 } := by
  simp [Deser.advance, h, Deser.advanceLow, Deser.phaseGoesOn, hp, hm]

/-- LOW, the last cycle, all pulses done: the read completes. -/
theorem Deser.advance_complete {c : Conf} {d : Deser} (b : Bool) (h : d.rdState = .low)
    (hp : ¬d.halfCnt.toNat + 1 < c.cfgSckHalf.toNat) (hm : ¬d.pulseCnt.toNat < c.pulses) :
    d.advance c b = { d with rdState := .idle, sample := sext32 d.acc, valid := true } := by
  simp [Deser.advance, h, Deser.advanceLow, Deser.phaseGoesOn, hp, hm]

/-- The bits of a shifted accumulator: the new bit at 0, every other one place up. -/
theorem shiftIn_getLsbD (acc : BitVec 24) (b : Bool) (i : Nat) :
    (shiftIn acc b).getLsbD i = if i = 0 then b else decide (i < 24) && acc.getLsbD (i - 1) := by
  unfold shiftIn
  rw [BitVec.getLsbD_append]
  cases i with
  | zero => simp
  | succ i =>
    by_cases h : i < 23
    · simp [h, show i + 1 < 24 by omega]
    · simp [h, show ¬i + 1 < 24 by omega]

end Sys2Proof.Machine
end

