-- ==== Sys2Proof/Laws/HostAgent.lean ====
section
/-! SUPPORT. The closed system's cycle, and which bus accesses are the host's moves. -/

namespace Sys2Proof.Machine

theorem hostStep_of_move {s : State} (h : s.hostMove = true) : hostStep s = step s := by simp [hostStep, h]

theorem hostStep_of_not_move {s : State} (h : s.hostMove = false) : hostStep s = .refused .hostMoveOutsideTable := by
  simp [hostStep, h]

/-- Everything a next state of the closed system says: the input was a move, and the block made the step. -/
theorem hostStep_next {s t : State} (h : hostStep s = .next t) : s.hostMove = true ∧ step s = .next t := by
  cases hm : s.hostMove
  · rw [hostStep_of_not_move hm] at h; cases h
  · exact ⟨rfl, by rwa [hostStep_of_move hm] at h⟩

@[simp] theorem hostMove_presentWord (s : State) (w : Word) : (s.presentWord w).hostMove = s.hostWrites w := rfl

@[simp] theorem hostMove_presentRead (s : State) (off : BitVec 5) : (s.presentRead off).hostMove = hostReads off := rfl

@[simp] theorem hostMove_noAccess (s : State) : s.noAccess.hostMove = true := rfl

/-- A write elsewhere than CMD is no move. -/
theorem hostMove_presentWrite_other (s : State) {off : BitVec 5} (w : Word) (h : off ≠ 0x00#5) :
    (s.presentWrite off w).hostMove = false := by
  have hc : (s.presentWrite off w).input.command = none := by simp [State.presentWrite, State.input, Input.command, h]
  unfold State.hostMove
  rw [hc]
  rfl

/-- A reset is a move, but with both strobes. -/
theorem hostMove_of_rst {s : State} (h : s.input.rst = true) (hb : s.input.bothStrobes = false) : s.hostMove = true := by
  simp [State.hostMove, h, hb]

/-- Both strobes are no move. -/
theorem hostMove_of_bothStrobes {s : State} (h : s.input.bothStrobes = true) : s.hostMove = false := by
  simp [State.hostMove, h]

end Sys2Proof.Machine
end

