-- ==== Sys2Proof/Laws/PerInstr.lean ====
section
/-! SUPPORT. One fact per command about its encoding: the word of a command carries its opcode in bits 31 to 28 and no reserved bit (30_encoding.md R58, R59). -/

namespace Sys2Proof

namespace Laws.EncodedShape

/-- The word of a command has the command's opcode and no reserved bit set. -/
def Statement (i : Instr) : Prop :=
  Opcode.ofBits (field (encode i) 28 4) = some i.opcode ∧ encode i &&& i.opcode.reservedMask = 0#32

/-- The opcode field of a word made of an opcode in bits 31 to 28 and a field narrower than 28 bits. -/
theorem opcode_or {n : Nat} (hn : n ≤ 28) (op : Word) (v : BitVec n) :
    field (op ||| v.setWidth 32) 28 4 = field op 28 4 := by
  apply BitVec.eq_of_getLsbD_eq
  intro i hi
  have h : v.getLsbD (28 + i) = false := BitVec.getLsbD_of_ge _ _ (by omega)
  simp [field, hi, h]

/-- No bit of a narrow field lies under a mask that starts above it, and none of the opcode under a mask of the operand
area. -/
theorem masked_or {n : Nat} {op mask : Word} (v : BitVec n) (ho : op &&& mask = 0#32)
    (hm : ∀ i : Fin 32, i < n → mask.getLsbD i = false) : (op ||| v.setWidth 32) &&& mask = 0#32 := by
  have hv : v.setWidth 32 &&& mask = 0#32 := by
    apply BitVec.eq_of_getLsbD_eq
    intro i hi
    by_cases h : i < n
    · simp [hm ⟨i, hi⟩ h]
    · simp [BitVec.getLsbD_of_ge v i (by omega)]
  have hd : (op ||| v.setWidth 32) &&& mask = (op &&& mask) ||| (v.setWidth 32 &&& mask) := by
    apply BitVec.eq_of_getLsbD_eq
    intro i hi
    simp only [BitVec.getLsbD_and, BitVec.getLsbD_or]
    cases op.getLsbD i <;> cases (v.setWidth 32).getLsbD i <;> cases mask.getLsbD i <;> rfl
  rw [hd, ho, hv]
  decide

/-- An opcode word with a narrow field put in has the shape of its opcode. -/
theorem shape_or {n : Nat} (op : Opcode) (w : Word) (v : BitVec n) (hn : n ≤ 28)
    (ho : Opcode.ofBits (field w 28 4) = some op) (hw : w &&& op.reservedMask = 0#32)
    (hm : ∀ i : Fin 32, i < n → op.reservedMask.getLsbD i = false) :
    Opcode.ofBits (field (w ||| v.setWidth 32) 28 4) = some op ∧ (w ||| v.setWidth 32) &&& op.reservedMask = 0#32 :=
  ⟨by rw [opcode_or hn, ho], masked_or v hw hm⟩

theorem nop : Statement .nop := by unfold Statement; decide

theorem lock : Statement .lock := by unfold Statement; decide

theorem read : Statement .read := by unfold Statement; decide

theorem clear : Statement .clear := by unfold Statement; decide

theorem cfgExtra (n : BitVec 2) : Statement (.cfgExtra n) :=
  shape_or .cfgExtra 0x10000000#32 n (by omega) (by decide) (by decide) (by decide)

theorem cfgTimeout (t : BitVec 24) : Statement (.cfgTimeout t) :=
  shape_or .cfgTimeout 0x20000000#32 t (by omega) (by decide) (by decide) (by decide)

theorem cfgSck (h : BitVec 8) : Statement (.cfgSck h) :=
  shape_or .cfgSck 0x30000000#32 h (by omega) (by decide) (by decide) (by decide)

theorem cfgPwm (p : BitVec 16) : Statement (.cfgPwm p) :=
  shape_or .cfgPwm 0x40000000#32 p (by omega) (by decide) (by decide) (by decide)

theorem apply (dir : DirField) (duty : BitVec 7) : Statement (.apply dir duty) :=
  shape_or .apply (0x70000000#32 ||| (dir.toBits.setWidth 32 <<< 7)) duty (by omega) (by cases dir <;> decide)
    (by cases dir <;> decide) (by decide)

end Laws.EncodedShape

end Sys2Proof
end

