-- ==== Sys2Proof/Laws/Runs.lean ====
section
/-! SUPPORT. Runs in which the environment does nothing: a drive goes on, and a pending drive waits in STOP. -/

namespace Sys2Proof.Machine

/-- A cycle with no input placed has an idle input. -/
theorem State.input_of_nil {s : State} (h : s.inputs = []) : s.input = Input.idle := by
  simp [State.input, h]

theorem State.inputAt_of_nil {s : State} (h : s.inputs = []) (k : Nat) : s.inputAt k = Input.idle := by
  simp [State.inputAt, h]

/-- With no input placed no cycle is disturbed and no command arrives. -/
theorem State.undisturbed_of_nil {s : State} (h : s.inputs = []) (n : Nat) : s.Undisturbed n := fun k _ => by
  rw [State.inputAt_of_nil h]; exact ⟨rfl, rfl⟩

/-- The step of a cycle with no input placed. -/
theorem step_of_nil {s : State} (h : s.inputs = []) : step s = .next (enginePhase s s) := by
  have hi := State.input_of_nil h
  rw [step_admitted (by rw [hi]; exact ⟨rfl, rfl⟩), State.postCommand_none (by rw [hi]; rfl)]

/-- A drive nothing interrupts goes on in its direction. -/
theorem after_drive {s : State} (h : s.inputs = []) (hd : s.pwm.actDir ≠ .stop) (k : Nat) :
    ∃ u, s.after k = some u ∧ u.pwm.actDir = s.pwm.actDir := by
  induction k generalizing s with
  | zero => exact ⟨s, rfl, rfl⟩
  | succ k ih =>
    have hs := step_of_nil h
    have hk := (Pwm.advance_drive_keeps (c := s.conf) hd).1
    obtain ⟨u, hu, hdir⟩ := ih (s := enginePhase s s) (by simp [h]) (by rw [enginePhase_pwm, hk]; exact hd)
    exact ⟨u, by rw [after_succ hs, hu], by rw [hdir, enginePhase_pwm, hk]⟩

/-- A pending drive in another direction waits in STOP for as long as the hold has not elapsed, counting up. -/
theorem after_hold {s : State} (h : s.inputs = []) (hd : s.pwm.actDir = .stop)
    (hl : LastDir.ofDir s.pwm.pendDir ≠ s.pwm.lastDir) (n : Nat) (hn : s.pwm.stopCnt.toNat + n ≤ s.conf.period)
    (hsat : s.conf.period < 2 ^ 23) :
    ∃ u, s.after n = some u ∧ u.conf = s.conf ∧ u.inputs = [] ∧ u.pwm = { s.pwm with stopCnt := u.pwm.stopCnt } ∧
      u.pwm.stopCnt.toNat = s.pwm.stopCnt.toNat + n := by
  induction n generalizing s with
  | zero => exact ⟨s, rfl, rfl, h, rfl, rfl⟩
  | succ n ih =>
    have hs := step_of_nil h
    have hp : (enginePhase s s).pwm = { s.pwm with stopCnt := sat23 (s.pwm.stopCnt.toNat + 1) } := by
      rw [enginePhase_pwm]
      refine Pwm.advance_holds hd fun hm => ?_
      rcases ((Pwm.mayStart_iff _ _).1 hm).2 with h' | h'
      · exact hl h'
      · omega
    have hc : (enginePhase s s).pwm.stopCnt.toNat = s.pwm.stopCnt.toNat + 1 := by
      rw [hp]; simp only [sat23_toNat]; omega
    obtain ⟨u, hu, h1, h2, h3, h4⟩ :=
      ih (s := enginePhase s s) (by simp [h]) (by rw [hp]; exact hd) (by rw [hp]; exact hl)
        (by rw [hc, enginePhase_conf]; omega) hsat
    refine ⟨u, by rw [after_succ hs, hu], h1, h2, ?_, by rw [h4, hc]; omega⟩
    rw [h3, hp]

/-- A pending drive whose hold has elapsed starts. -/
theorem step_starts {s : State} (h : s.inputs = []) (hd : s.pwm.actDir = .stop) (hv : s.pwm.pendValid = true)
    (hc : s.conf.period ≤ s.pwm.stopCnt.toNat) :
    ∃ u, step s = .next u ∧ u.conf = s.conf ∧ u.pwm.actDir = s.pwm.pendDir :=
  ⟨_, step_of_nil h, rfl, by
    rw [enginePhase_pwm, Pwm.advance_starts hd ((Pwm.mayStart_iff _ _).2 ⟨hv, .inr hc⟩)]⟩

end Sys2Proof.Machine
end

