-- ==== Sys2Proof/Tests/Slice0.lean ====
section
/-! SUPPORT. Tests of one step each, with expected values from the spec's encodings and test vectors, and a witness for the hypotheses of every statement. -/

namespace Sys2Proof.Tests

open Sys2Proof Sys2Proof.Machine

/-! ### Helpers -/

/-- The state after the cycle in which the word `w` is written to CMD; the state itself if there is none. -/
def wrote (s : State) (w : Word) : State :=
  match step (s.presentWord w) with
  | .next t => t
  | _ => s

/-- An idle cycle with this DOUT bit. -/
def bit (b : Bool) : Input := { Input.idle with dout := some b }

/-- A cycle that writes `w` to CMD, with DOUT high. -/
def cmd (w : Word) : Input := { Input.idle with busWr := true, busWdata := w, dout := some true }

/-- The state CONF of 95_test_vectors.md leaves (h = 1, E = 1, T = 3, PERIOD = 100), `n` cycles after reset. -/
def conf (n : BitVec 23) : State :=
  { State.reset with
    conf := { cfgExtra := 1, cfgTimeout := 3, cfgSckHalf := 1, cfgSlice := 1, locked := true }
    pwm := { Pwm.reset with stopCnt := n } }

/-- FWD 30 active in the slice `i` (vector V36, s_{101+i}). -/
def fwd30 (i : BitVec 7) : State :=
  { conf 0 with
    pwm := { Pwm.reset with actDir := .fwd, actDuty := 30, sliceCnt := i, lastDir := .fwd, stopCnt := 100 } }

/-- A read in progress in the state `r`, with `n` pulses done, and DOUT `b` in this cycle. -/
def reading (r : RdState) (n : BitVec 5) (acc : BitVec 24) (b : Bool) : State :=
  { conf 5 with deser := { Deser.reset with rdState := r, pulseCnt := n, acc := acc }, inputs := [bit b] }

/-- The invariant's items as checks, which the kernel evaluates on a concrete state. -/
def invChecks (s : State) : Bool :=
  decide s.DutyOk && decide s.NotBothHigh && decide s.PendOk && decide s.UnlockedOk && decide s.BusyLocked &&
    decide s.ErrOk && decide s.SampleOk && decide s.PwmCountersOk && decide s.DriveOk && decide s.LockedConfOk &&
    decide s.ReadCountersOk && decide s.OutcomeOk

/-- The invariant from its checks. -/
theorem inv_of_checks {s : State} (h : invChecks s = true) : s.Inv := by
  simp only [invChecks, Bool.and_eq_true, decide_eq_true_eq] at h
  obtain ⟨⟨⟨⟨⟨⟨⟨⟨⟨⟨⟨a, b⟩, c⟩, d⟩, e⟩, f⟩, g⟩, i⟩, j⟩, k⟩, l⟩, m⟩ := h
  exact ⟨⟨a, b, c, d, e, f, g⟩, i, j, k, l, m⟩

/-! ### Decoding: words written out from 30_encoding.md -/

/-- R60: op 0000 (NOP), 0101 (LOCK), 0110 (READ), 1000 (CLEAR), operand area 0. -/
theorem test_decode_control :
    decode 0b0000_0000000000000000000000000000#32 = .ok .nop ∧ decode 0b0101_0000000000000000000000000000#32 = .ok .lock ∧
      decode 0b0110_0000000000000000000000000000#32 = .ok .read ∧
      decode 0b1000_0000000000000000000000000000#32 = .ok .clear := by decide

/-- R61, R62, R63, R64: op, reserved zeros, then EXTRA, TIMEOUT, HALF, SLICE. -/
theorem test_decode_config :
    decode 0b0001_00000000000000000000000000_10#32 = .ok (.cfgExtra 2) ∧
      decode 0b0010_0000_100000000000000000000001#32 = .ok (.cfgTimeout 0x800001) ∧
      decode 0b0011_00000000000000000000_10000010#32 = .ok (.cfgSck 0x82) ∧
      decode 0b0100_000000000000_1000000000000011#32 = .ok (.cfgPwm 0x8003) := by decide

/-- R66, R67: op 0111, reserved zeros, DIR, DUTY. -/
theorem test_decode_apply :
    decode 0b0111_0000000000000000000_00_0000000#32 = .ok (.apply .stop 0) ∧
      decode 0b0111_0000000000000000000_01_0011110#32 = .ok (.apply .fwd 30) ∧
      decode 0b0111_0000000000000000000_10_1100100#32 = .ok (.apply .bwd 100) ∧
      decode 0b0111_0000000000000000000_11_1111111#32 = .ok (.apply .reserved 127) := by decide

/-- R70, R71: the highest opcode and the lowest reserved one, and one reserved bit of each kind of operand area. -/
theorem test_decode_rejects :
    decode 0x90000000#32 = .error .reservedOpcode ∧ decode 0xFFFFFFFF#32 = .error .reservedOpcode ∧
      decode 0x00000001#32 = .error (.reservedBits .nop) ∧ decode 0x10000004#32 = .error (.reservedBits .cfgExtra) ∧
      decode 0x21000000#32 = .error (.reservedBits .cfgTimeout) ∧ decode 0x30000100#32 = .error (.reservedBits .cfgSck) ∧
      decode 0x40010000#32 = .error (.reservedBits .cfgPwm) ∧ decode 0x50000001#32 = .error (.reservedBits .lock) ∧
      decode 0x68000000#32 = .error (.reservedBits .read) ∧ decode 0x7000029E#32 = .error (.reservedBits .apply) ∧
      decode 0x80000001#32 = .error (.reservedBits .clear) := by decide

/-- 20_memory.md R46: the bytes of 0x7000009E, least significant first. -/
theorem test_bridge_bytes :
    wordToBytes 0x7000009E#32 = [0x9E#8, 0x00#8, 0x00#8, 0x70#8] ∧
      decodeBytes [0x9E#8, 0x00#8, 0x00#8, 0x70#8] = some (.ok (.apply .fwd 30), []) ∧
      decodeBytes [0x9E#8, 0x00#8, 0x00#8] = none := by decide

/-- The table's words through the host's entry. -/
theorem test_table_words :
    decodeTableWord 32 0x70000164 = some (.apply .bwd 100) ∧ decodeTableWord 32 0x60000000 = some .read ∧
      decodeTableWord 32 0x10000003 = some (.cfgExtra 3) ∧ decodeTableWord 32 0xA0000000 = none := by decide

/-- R75: `STOP` and `RETRACT` are APPLY words. -/
theorem test_pseudo_words :
    encode (.apply .stop 0) = 0x70000000#32 ∧ encode (.apply .bwd 100) = 0x70000164#32 := by decide

/-! ### Well-formedness: the ranges of 30_encoding.md R74 -/

theorem test_wellformed_refuses :
    (Instr.cfgExtra 0).wellFormed = false ∧ (Instr.cfgSck 0).wellFormed = false ∧
      (Instr.cfgPwm 0).wellFormed = false ∧ (Instr.apply .reserved 5).wellFormed = false ∧
      (Instr.apply .fwd 101).wellFormed = false ∧ (Instr.apply .stop 101).wellFormed = false := by decide

theorem test_wellformed_accepts :
    (Instr.cfgExtra 3).wellFormed = true ∧ (Instr.cfgSck 255).wellFormed = true ∧
      (Instr.cfgPwm 65535).wellFormed = true ∧ (Instr.cfgTimeout 0).wellFormed = true ∧
      (Instr.apply .bwd 100).wellFormed = true ∧ (Instr.apply .fwd 0).wellFormed = true ∧
      Instr.nop.wellFormed = true ∧ Instr.lock.wellFormed = true ∧ Instr.read.wellFormed = true ∧
      Instr.clear.wellFormed = true := by decide

/-! ### One step each, from the vectors of 95_test_vectors.md -/

/-- V58. -/
theorem test_nop : (wrote .reset 0x00000000).statusReg = 0#32 := by decide

/-- V59. -/
theorem test_nop_reserved : (wrote .reset 0x00000001).statusReg = 0x210#32 := by decide

/-- V1. -/
theorem test_cfgExtra : (wrote .reset 0x10000003).cfgAdcReg = 3#32 := by decide

/-- V2, V12, V13, V14: codes 3, 4, 4 and 2. -/
theorem test_cfgExtra_rejected :
    (wrote .reset 0x10000000).statusReg = 0x310#32 ∧ (wrote (conf 5) 0x10000002).statusReg = 0x418#32 ∧
      (wrote (conf 5) 0x10000000).statusReg = 0x418#32 ∧ (wrote (conf 5) 0x1000000C).statusReg = 0x218#32 := by decide

/-- V4. -/
theorem test_cfgTimeout : (wrote .reset 0x20FFFFFF).cfgTimeoutReg = 0xFFFFFF#32 := by decide

/-- V5. -/
theorem test_cfgTimeout_reserved : (wrote .reset 0x21000000).statusReg = 0x210#32 := by decide

/-- V7. -/
theorem test_cfgSck : (wrote .reset 0x300000FF).cfgAdcReg = 0xFF00#32 := by decide

/-- V6. -/
theorem test_cfgSck_zero : (wrote .reset 0x30000000).statusReg = 0x310#32 := by decide

/-- V8. -/
theorem test_cfgPwm : (wrote .reset 0x4000FFFF).cfgPwmReg = 0xFFFF#32 := by decide

/-- V9. -/
theorem test_cfgPwm_zero : (wrote .reset 0x40000000).statusReg = 0x310#32 := by decide

/-- V11's last step: LOCK with every field configured. -/
theorem test_lock :
    (wrote { conf 4 with conf := { (conf 4).conf with locked := false } } 0x50000000).statusReg = 8#32 := by decide

/-- V60, V62: codes 7 and 4. -/
theorem test_lock_rejected :
    (wrote .reset 0x50000000).statusReg = 0x710#32 ∧ (wrote (conf 5) 0x50000000).statusReg = 0x418#32 := by decide

/-- V23, s_6: WAIT, BUSY and LOCKED. -/
theorem test_read :
    (wrote (conf 5) 0x60000000).statusReg = 9#32 ∧ (wrote (conf 5) 0x60000000).deserReg = 1#32 := by decide

/-- V33, V30: codes 5 and 6. -/
theorem test_read_rejected :
    (wrote .reset 0x60000000).statusReg = 0x510#32 ∧
      (wrote (reading .low 6 0 true) 0x60000000).statusReg = 0x619#32 := by decide

/-- V36, V42, V41: pending, started at once in the last direction, stopped. -/
theorem test_apply :
    (wrote (conf 5) 0x7000009E).statusReg = 0x4008#32 ∧
      (wrote { conf 3 with pwm := { Pwm.reset with lastDir := .fwd, stopCnt := 3 } } 0x700000B2).statusReg =
        0x01321008#32 ∧
      (wrote (fwd30 19) 0x70000000).statusReg = 0x01000008#32 := by decide

/-- V44, V45, V46, V48: rejected with codes 3, 3, 2 and 3, and stopped. -/
theorem test_apply_rejected :
    (wrote (fwd30 19) 0x70000180).statusReg = 0x01000318#32 ∧
      (wrote (fwd30 19) 0x700000E5).statusReg = 0x01000318#32 ∧
      (wrote (fwd30 19) 0x7000029E).statusReg = 0x01000218#32 ∧
      (wrote (conf 5) 0x70000065).statusReg = 0x318#32 := by decide

/-- V64. -/
theorem test_clear : (wrote (wrote .reset 0x60000000) 0x80000000).statusReg = 0#32 := by decide

/-- V65. -/
theorem test_clear_reserved : (wrote (wrote .reset 0x60000000) 0x80000001).statusReg = 0x510#32 := by decide

/-- V63: the first error is kept. -/
theorem test_first_error : (wrote (wrote .reset 0x60000000) 0x90000000).statusReg = 0x510#32 := by decide

/-- V51, V73: the reversal's PEND register. -/
theorem test_reversal : (wrote (fwd30 19) 0x70000164).pendReg = 0x80000164#32 := by decide

/-- V38, P2: the pending duty is adopted at the boundary, in s_201 of slice 99's last cycle. -/
theorem test_boundary :
    (wrote { fwd30 99 with pwm := { (fwd30 99).pwm with pendValid := true, pendDir := .fwd, pendDuty := 80 } }
      0x00000000).statusReg = 0x01501008#32 := by decide

/-- V69, V70, V71, V68: misaligned and ignored accesses, and CMD's read. -/
theorem test_host_port :
    ((State.reset).presentRead 0x05).busRdata = some 0#32 ∧ ((conf 5).presentRead 0x00).busRdata = some 0#32 ∧
      ((conf 5).presentRead 0x0C).busRdata = some 0x101#32 ∧
      (State.reset.presentWrite 0x01 0x50000000#32).input.command = none ∧
      (State.reset.presentWrite 0x04 0x50000000#32).input.command = none := by decide

/-- The deserializer's cases on one bit: ready, not ready, timed out, fall with a data bit, fall of an extra pulse,
rise, completion of V17 (R83 to R88). -/
theorem test_deser_cases :
    ((reading .wait 0 0 false).deser.advance (conf 5).conf false).rdState = .high ∧
      ((reading .wait 0 0 true).deser.advance (conf 5).conf true).waitCnt = 1#24 ∧
      (Deser.advance (conf 5).conf { Deser.reset with rdState := .wait, waitCnt := 3 } true).nrdy = true ∧
      ((reading .high 23 0x400001 true).deser.advance (conf 5).conf true).acc = 0x800003#24 ∧
      ((reading .high 24 0x400001 true).deser.advance (conf 5).conf true).acc = 0x400001#24 ∧
      ((reading .low 24 0 true).deser.advance (conf 5).conf true).rdState = .high ∧
      ((reading .low 25 0x800000 true).deser.advance (conf 5).conf true).sample = 0xFF800000#32 := by decide

/-- The host's fetch: the very next step runs the word. -/
theorem test_fetch_word :
    (match step (State.reset.withFetchWord 32 0x10000002) with
      | .next t => t.conf.cfgExtra
      | _ => 0) = 2#2 := by decide

/-! ### Witnesses: states and operands that meet the hypotheses of each statement, one for each of its clauses -/

theorem inv_conf5 : (conf 5).Inv := inv_of_checks (by decide)

theorem inv_fwd30 : (fwd30 19).Inv := inv_of_checks (by decide)

/-- O2, O3. -/
theorem witness_encoding :
    decode 0x70000164#32 = .ok (.apply .bwd 100) ∧ ((3 : Nat) < 4 ∧ (7 : Nat) < 8) := by decide

/-- O6: the first reserved opcode, NOP's word, and a NOP word with its highest operand bit set. -/
theorem witness_ReservedWordsAreRejected :
    0x9#4 ≤ (0x90000000#32).extractLsb' 28 4 ∧ decode 0x00000000#32 = .ok .nop ∧
      (0x08000000#32).extractLsb' 28 4 = 0x0#4 ∧ 0x08000000#32 ≠ 0#32 := by decide

/-- O7: each code of the check, and acceptance. -/
theorem witness_CheckRunsInSpecOrder :
    checkWord .reset 0x90000000 = 1 ∧ checkWord .reset 0x50000001 = 2 ∧ checkWord .reset 0x10000000 = 3 ∧
      checkWord (conf 5) 0x10000001 = 4 ∧ checkWord .reset 0x700000E5 = 5 ∧
      checkWord (reading .wait 0 0 true) 0x60000000 = 6 ∧ checkWord .reset 0x50000000 = 7 ∧
      checkWord (conf 5) 0x700000E4 = 0 := by decide

/-- O8: a cycle with a command and one without. -/
theorem witness_StepRunsDecodedCommand :
    (({ conf 5 with inputs := [cmd 0x60000000] } : State).input.admitted ∧
        ({ conf 5 with inputs := [cmd 0x60000000] } : State).input.command = some 0x60000000#32 ∧
        decode 0x60000000#32 = .ok .read) ∧
      ((conf 5).input.admitted ∧ (conf 5).input.command = none) := by decide

/-- O8: READ answers a next state in the state of its witness. -/
theorem witness_exec_read : ∃ t, exec .read { conf 5 with inputs := [cmd 0x60000000] } = .next t := ⟨_, rfl⟩

/-- O9, O10: reset with both strobes, and both strobes alone. -/
theorem witness_strobes :
    ({ conf 5 with inputs := [{ Input.idle with rst := true, busWr := true, busRd := true }] } : State).input.rst = true ∧
      (conf 5).input.bothStrobes = false ∧
      (({ conf 5 with inputs := [{ Input.idle with busWr := true, busRd := true }] } : State).input.rst = false ∧
        ({ conf 5 with inputs := [{ Input.idle with busWr := true, busRd := true }] } : State).input.busWr = true ∧
        ({ conf 5 with inputs := [{ Input.idle with busWr := true, busRd := true }] } : State).input.busRd = true) := by
  decide

/-- O10: for each move of the table and each that is outside it, a word and a state. -/
theorem witness_host_moves :
    (State.reset.hostWrites 0x10000000 && State.reset.hostWrites 0x50000000 && State.reset.hostWrites 0x80000000 &&
        (conf 5).hostWrites 0x60000000 && (conf 5).hostWrites 0x70000164 && hostReads 0x04) = true ∧
      (State.reset.hostWrites 0x00000000 || State.reset.hostWrites 0x90000000 || (conf 5).hostWrites 0x10000001 ||
        State.reset.hostWrites 0x60000000 || State.reset.hostWrites 0x70000000 ||
        (reading .low 6 0 true).hostWrites 0x60000000 || (conf 5).hostWrites 0x700000E5 ||
        (conf 5).hostWrites 0x70000180 || hostReads 0x00 || hostReads 0x05 || hostReads 0x1C) = false ∧
      (∃ e, decode 0x90000000#32 = .error e) ∧
      ({ conf 5 with inputs := [{ Input.idle with rst := true }] } : State).hostMove = true :=
  ⟨by decide, by decide, ⟨_, rfl⟩, by decide⟩

/-- O10: a run of the closed system. -/
theorem witness_host_run : ∃ t, State.hostAfter 1 { conf 5 with inputs := [cmd 0x60000000] } = some t := ⟨_, rfl⟩

/-- O11 to O17, O25: the lock states, the operands and the reserved-bit words of the NOP, CFG, LOCK, READ and CLEAR
clauses. -/
theorem witness_command_clauses :
    State.reset.conf.locked = false ∧ (conf 5).conf.locked = true ∧ (1#2 ≠ 0#2 ∧ 1#8 ≠ 0#8 ∧ 1#16 ≠ 0#16) ∧
      ((0x00000001#32).extractLsb' 28 4 = 0x0#4 ∧ (0x00000001#32).extractLsb' 0 28 ≠ 0#28) ∧
      ((0x10000004#32).extractLsb' 28 4 = 0x1#4 ∧ (0x10000004#32).extractLsb' 2 26 ≠ 0#26) ∧
      ((0x21000000#32).extractLsb' 28 4 = 0x2#4 ∧ (0x21000000#32).extractLsb' 24 4 ≠ 0#4) ∧
      ((0x30000100#32).extractLsb' 28 4 = 0x3#4 ∧ (0x30000100#32).extractLsb' 8 20 ≠ 0#20) ∧
      ((0x40010000#32).extractLsb' 28 4 = 0x4#4 ∧ (0x40010000#32).extractLsb' 16 12 ≠ 0#12) ∧
      ((0x58000000#32).extractLsb' 28 4 = 0x5#4 ∧ (0x58000000#32).extractLsb' 0 28 ≠ 0#28) ∧
      ((0x60000001#32).extractLsb' 28 4 = 0x6#4 ∧ (0x60000001#32).extractLsb' 0 28 ≠ 0#28) ∧
      ((0x88000000#32).extractLsb' 28 4 = 0x8#4 ∧ (0x88000000#32).extractLsb' 0 28 ≠ 0#28) := by decide

/-- O12: a read in progress, where a CFG command leaves the configuration. -/
theorem witness_CfgExtraRule :
    (reading .wait 0 0 true).Inv ∧ (reading .wait 0 0 true).deser.rdState ≠ .idle ∧
      ∃ t, exec (.cfgExtra 2) (reading .wait 0 0 true) = .next t :=
  ⟨inv_of_checks (by decide), by decide, _, rfl⟩

/-- O16: the three clauses of LOCK, and the steps and commands after it. -/
theorem witness_LockRule :
    (({ conf 4 with conf := { (conf 4).conf with locked := false } } : State).conf.cfgExtra ≠ 0#2 ∧
        ({ conf 4 with conf := { (conf 4).conf with locked := false } } : State).conf.cfgSckHalf ≠ 0#8 ∧
        ({ conf 4 with conf := { (conf 4).conf with locked := false } } : State).conf.cfgSlice ≠ 0#16) ∧
      State.reset.conf.cfgExtra = 0#2 ∧
      ((conf 5).conf.locked = true ∧ (conf 5).input.rst = false) ∧
      (Instr.cfgTimeout 9).opcode ∈ [Opcode.cfgExtra, .cfgTimeout, .cfgSck, .cfgPwm, .lock] := by decide

/-- O16: the locked state steps. -/
theorem witness_LockRule_steps : ∃ t, step (conf 5) = .next t := ⟨_, step_of_nil rfl⟩

/-- O17: idle and busy. -/
theorem witness_ReadRule :
    (conf 5).deser.rdState = .idle ∧ (reading .high 3 0 true).conf.locked = true ∧
      (reading .high 3 0 true).deser.rdState ≠ .idle := by decide

/-- O18 to O24: an accepted STOP, an accepted 0, the same command, a new duty, a start and a reversal, each in its state;
and the three rejections. -/
theorem witness_apply_clauses :
    (conf 5).conf.locked = true ∧ (fwd30 19).conf.locked = true ∧ State.reset.conf.locked = false ∧
      direction .stop = some .stop ∧ direction .fwd = some .fwd ∧ direction .bwd = some .bwd ∧
      (0#7).toNat ≤ 100 ∧ (100#7).toNat ≤ 100 ∧ 100 < (101#7).toNat ∧
      (fwd30 19).pwm.actDir = .fwd ∧ (fwd30 19).pwm.actDuty = 30#7 ∧ (30#7 : BitVec 7) ≠ 0#7 ∧
      (100#7 : BitVec 7) ≠ 30#7 ∧ (conf 5).pwm.actDir = .stop ∧ (fwd30 19).conf.cfgSlice ≠ 0#16 ∧
      ((0x7000029E#32).extractLsb' 28 4 = 0x7#4 ∧ (0x7000029E#32).extractLsb' 9 19 ≠ 0#19) ∧
      ((0x78000000#32).extractLsb' 28 4 = 0x7#4 ∧ (0x78000000#32).extractLsb' 9 19 ≠ 0#19) := by decide

/-- O20: with FWD 30 active and nothing pending, with FWD 80 pending, and in STOP. -/
theorem witness_ApplyIsIdempotent :
    (fwd30 19).Inv ∧ (fwd30 19).pwm.pendValid = false ∧
      State.Inv { fwd30 19 with pwm := { (fwd30 19).pwm with pendValid := true, pendDir := .fwd, pendDuty := 80 } } ∧
      (80#7 : BitVec 7) ≠ (fwd30 19).pwm.actDuty ∧ (conf 5).Inv :=
  ⟨inv_fwd30, by decide, inv_of_checks (by decide), by decide, inv_conf5⟩

/-- O21: at the boundary and away from it, with a pending duty and no command in the cycle. -/
theorem witness_NewDutyWaitsForTheBoundary :
    (fwd30 99).atBoundary ∧ ¬(fwd30 98).atBoundary ∧
      (({ fwd30 99 with pwm := { (fwd30 99).pwm with pendValid := true, pendDir := .fwd, pendDuty := 80 } } :
            State).input.admitted ∧
        ({ fwd30 99 with pwm := { (fwd30 99).pwm with pendValid := true, pendDir := .fwd, pendDuty := 80 } } :
            State).input.command = none) := by decide

/-- O22: the hold elapsed just now, and one cycle short of it; the last direction driven and the other. -/
theorem witness_ApplyFromStopWaitsForTheHold :
    (conf 100).conf.period ≤ (conf 100).pwm.stopCnt.toNat ∧ ¬(conf 99).conf.period ≤ (conf 99).pwm.stopCnt.toNat ∧
      LastDir.ofDir .fwd ≠ (conf 99).pwm.lastDir ∧ LastDir.ofDir .fwd = (fwd30 0).pwm.lastDir ∧
      (enginePhase (conf 99) (conf 99)).input.admitted ∧ (enginePhase (conf 99) (conf 99)).input.command = none := by
  decide

/-- O24: a rejected APPLY before the lock. -/
theorem witness_RejectedApplyStopsTheDrive : State.reset.Inv ∧ State.reset.conf.locked = false :=
  ⟨inv_of_checks (by decide), rfl⟩

/-- O25: the state of R124's example. -/
theorem witness_ClearRule :
    State.statusReg { State.reset with err := { cmdErr := true, errCode := .notLocked } } = 0x510#32 := by decide

/-- O26: an empty record and a full one. -/
theorem witness_FirstErrorIsKept :
    State.reset.err.cmdErr = false ∧ (wrote .reset 0x60000000).err.cmdErr = true := by decide

/-- O27: a rejected APPLY and a rejected READ. -/
theorem witness_RejectionIsPrecise : checkWord (fwd30 19) 0x700000E5 ≠ 0 ∧ checkWord .reset 0x60000000 ≠ 0 := by decide

/-- O28: the steps of a reset, an idle cycle, CLEAR, an accepted and a rejected command. -/
theorem witness_ErrorRecordIsSticky :
    (∃ t, step { conf 5 with inputs := [{ Input.idle with rst := true }] } = .next t) ∧
      (∃ t, step (conf 5) = .next t) ∧ (conf 5).input.command = none ∧
      (∃ t, step { wrote .reset 0x60000000 with inputs := [cmd 0x80000000] } = .next t) ∧
      (∃ t, step { conf 5 with inputs := [cmd 0x60000000] } = .next t) ∧ checkWord (conf 5) 0x60000000 = 0 ∧
      (∃ t, step { State.reset with inputs := [cmd 0x60000000] } = .next t) ∧ checkWord .reset 0x60000000 ≠ 0 ∧
      (∃ t, step { wrote .reset 0x60000000 with inputs := [cmd 0x50000000] } = .next t) ∧
      checkWord (wrote .reset 0x60000000) 0x50000000 ≠ 0 ∧ (conf 5).Inv :=
  ⟨⟨_, rfl⟩, ⟨_, rfl⟩, rfl, ⟨_, rfl⟩, ⟨_, rfl⟩, by decide, ⟨_, rfl⟩, by decide, ⟨_, rfl⟩, by decide, inv_conf5⟩

/-- O29 to O32: each command answers a next state, accepted. -/
theorem witness_frames :
    (∃ t, exec (.cfgExtra 2) .reset = .next t) ∧ (∃ t, exec (.cfgTimeout 2) .reset = .next t) ∧
      (∃ t, exec (.cfgSck 2) .reset = .next t) ∧ (∃ t, exec (.cfgPwm 2) .reset = .next t) ∧
      (∃ t, exec .read (conf 5) = .next t) ∧ (∃ t, exec (.apply .bwd 100) (fwd30 19) = .next t) ∧
      (∃ t, exec .nop .reset = .next t) ∧ (∃ t, exec .lock .reset = .next t) ∧ ∃ t, exec .clear .reset = .next t :=
  ⟨⟨_, rfl⟩, ⟨_, rfl⟩, ⟨_, rfl⟩, ⟨_, rfl⟩, ⟨_, rfl⟩, ⟨_, rfl⟩, ⟨_, rfl⟩, ⟨_, rfl⟩, ⟨_, rfl⟩⟩

/-- O29 to O32: an offset outside each command's registers. -/
theorem witness_frame_offsets :
    (Instr.cfgExtra 2).opcode ∈ [Opcode.cfgExtra, .cfgTimeout, .cfgSck, .cfgPwm] ∧ (0x08#5 : BitVec 5) ≠ 0x04#5 ∧
      (0x08#5 : BitVec 5) ≠ 0x0C#5 ∧ (0x08#5 : BitVec 5) ≠ 0x18#5 ∧ (0x08#5 : BitVec 5) ≠ 0x1C#5 ∧
      (fwd30 19).pwm.actDir ≠ .stop := by decide

/-- O36, O37: a misaligned offset, CMD's, and another aligned one. -/
theorem witness_offsets :
    (0x1F#5 : BitVec 5).extractLsb' 0 2 ≠ 0#2 ∧ (0x00#5 : BitVec 5).extractLsb' 0 2 = 0#2 ∧
      (0x1C#5 : BitVec 5).extractLsb' 0 2 = 0#2 ∧ (0x1C#5 : BitVec 5) ≠ 0x00#5 ∧ (conf 5).deser.rdState = .idle := by
  decide

/-- O39: a drive at full duty. -/
theorem witness_FullDutyNeverToggles :
    State.Inv { fwd30 99 with pwm := { (fwd30 99).pwm with actDuty := 100 } } ∧
      ∃ t, step { fwd30 99 with pwm := { (fwd30 99).pwm with actDuty := 100 } } = .next t ∧ t.pwm.actDir = .fwd ∧
        t.pwm.actDuty = 100#7 :=
  ⟨inv_of_checks (by decide), _, step_of_nil rfl, rfl, rfl⟩

/-- O40: a reset in the middle of a read. -/
theorem witness_ResetGivesResetState :
    ({ reading .low 6 0 true with inputs := [{ Input.idle with rst := true }] } : State).input.rst = true ∧
      State.reset.conf = .reset ∧ State.reset.deser = .reset ∧ State.reset.pwm = .reset ∧ State.reset.err = .reset := by
  decide

/-- O42, O43: a step from a state that meets the invariant, and a run from reset. -/
theorem witness_InvariantIsKept :
    (fwd30 19).Inv ∧ (∃ t, step (fwd30 19) = .next t) ∧
      ∃ t, State.after 1 { State.reset with inputs := [cmd 0x60000000] } = some t :=
  ⟨inv_fwd30, ⟨_, step_of_nil rfl⟩, _, rfl⟩

/-- O44: a read whose four checks all find DOUT high. -/
theorem witness_ReadyCheck :
    State.Inv { reading .wait 0 0 true with inputs := [bit true, bit true, bit true, bit true] } ∧
      State.Undisturbed { reading .wait 0 0 true with inputs := [bit true, bit true, bit true, bit true] } 4 ∧
      ∀ k, k ≤ 3 → State.doutAt { reading .wait 0 0 true with inputs := [bit true, bit true, bit true, bit true] } k = true := by
  refine ⟨inv_of_checks (by decide), ?_, ?_⟩
  · intro k hk; interval_cases k <;> exact ⟨rfl, rfl⟩
  · intro k hk; interval_cases k <;> rfl

/-- O44, O45, O46: WAIT, and the last and an earlier cycle of a HIGH and of a LOW phase, with a data pulse, an extra
pulse, more pulses due and none. -/
theorem witness_deser_phases :
    (reading .wait 0 0 true).deser.rdState = .wait ∧ (reading .high 23 0 true).input.admitted ∧
      ((reading .high 23 0 true).deser.halfCnt.toNat + 1 = (reading .high 23 0 true).conf.cfgSckHalf.toNat ∧
        (reading .high 23 0 true).deser.pulseCnt.toNat < 24) ∧
      24 ≤ (reading .high 24 0 true).deser.pulseCnt.toNat ∧
      (State.deser { reading .high 23 0 true with conf := { (conf 5).conf with cfgSckHalf := 2 } }).halfCnt.toNat + 1 <
        (State.conf { reading .high 23 0 true with conf := { (conf 5).conf with cfgSckHalf := 2 } }).cfgSckHalf.toNat ∧
      (reading .low 24 0 true).deser.pulseCnt.toNat < 24 + (reading .low 24 0 true).conf.cfgExtra.toNat ∧
      (reading .low 25 0 true).deser.pulseCnt.toNat = 24 + (reading .low 25 0 true).conf.cfgExtra.toNat := by decide

/-- O47: IDLE, with an accepted READ and without. -/
theorem witness_IdleDeserializerChangesOnlyByRead :
    (({ conf 5 with inputs := [cmd 0x60000000] } : State).input.admitted ∧ (conf 5).deser.rdState = .idle ∧
        ({ conf 5 with inputs := [cmd 0x60000000] } : State).input.command = some 0x60000000#32) ∧
      (conf 5).input.command = none := by decide

/-- O48: a step of a read, a reset step, and a step under the invariant. -/
theorem witness_SampleChangesOnlyAtCompletion :
    (∃ t, step (reading .low 25 0x800000 true) = .next t) ∧ (reading .low 25 0x800000 true).input.rst = false ∧
      (reading .low 25 0x800000 true).Inv ∧
      ∃ t, step { conf 5 with inputs := [{ Input.idle with rst := true }] } = .next t :=
  ⟨⟨_, rfl⟩, rfl, inv_of_checks (by decide), _, rfl⟩

/-- O49: a read in progress with no access and with a READ word, completing. -/
theorem witness_ReadCannotBeCancelled :
    (reading .low 25 5 true).deser.rdState ≠ .idle ∧
      State.dout { reading .low 25 5 true with inputs := [cmd 0x60000000] } = (reading .low 25 5 true).dout ∧
      ∃ t t', step (reading .low 25 5 true) = .next t ∧
        step { reading .low 25 5 true with inputs := [cmd 0x60000000] } = .next t' ∧ t.deser.rdState = .idle :=
  ⟨by decide, rfl, _, _, rfl, rfl, by decide⟩

/-- O50: a read from CONF that is ready at the first check, with 24 data bits 0: all hypotheses of the completed read. -/
theorem witness_ReadTimingAndResult :
    (conf 5).Inv ∧ ({ conf 5 with inputs := cmd 0x60000000 :: List.replicate 60 (bit false) } : State).input.admitted ∧
      ∃ r, step { conf 5 with inputs := cmd 0x60000000 :: List.replicate 60 (bit false) } = .next r ∧
        0 ≤ r.conf.cfgTimeout.toNat ∧ r.ReadyAfter 0 ∧
        r.Undisturbed (1 + 0 + 2 * r.conf.cfgSckHalf.toNat * r.conf.pulses) ∧ r.AdcSends 0 0#24 := by
  refine ⟨inv_conf5, by decide, _, rfl, Nat.zero_le _, ⟨fun k hk => absurd hk (Nat.not_lt_zero k), rfl⟩, ?_, ?_⟩
  · intro k hk
    have hk' : k < 51 := hk
    interval_cases k <;> exact ⟨rfl, rfl⟩
  · intro k hk; interval_cases k <;> rfl

/-- O50: a read from CONF whose four checks find DOUT high. -/
theorem witness_ReadTimingAndResult_timeout :
    ∃ r, step { conf 5 with inputs := [cmd 0x60000000, bit true, bit true, bit true, bit true] } = .next r ∧
      (∀ k, k ≤ r.conf.cfgTimeout.toNat → r.doutAt k = true) ∧ r.Undisturbed (r.conf.cfgTimeout.toNat + 1) := by
  refine ⟨_, rfl, ?_, ?_⟩
  · intro k hk
    have hk' : k ≤ 3 := hk
    interval_cases k <;> rfl
  · intro k hk
    have hk' : k < 4 := hk
    interval_cases k <;> exact ⟨rfl, rfl⟩

/-- O51: each case of PwmAdvance: a start in the last direction and after the hold, a held STOP, a tick, a slice, and the
boundary with and without a pending duty. -/
theorem witness_PwmAdvanceCases :
    ((conf 5).input.admitted ∧ (conf 5).input.command = none) ∧
      ((conf 99).pwm.actDir = .stop ∧ (conf 99).pwm.pendValid = false) ∧
      (State.pwm { conf 100 with pwm := (conf 100).pwm.setPend .fwd 30 }).pendValid = true ∧
      100 * (conf 100).conf.cfgSlice.toNat ≤ (conf 100).pwm.stopCnt.toNat ∧
      (fwd30 98).pwm.tickCnt.toNat + 1 < 2 ∧ (fwd30 98).conf.cfgSlice.toNat ≤ (fwd30 98).pwm.tickCnt.toNat + 1 ∧
      (fwd30 98).pwm.sliceCnt.toNat < 99 ∧ 99 ≤ (fwd30 99).pwm.sliceCnt.toNat := by decide

/-- O51: the state after a command phase. -/
theorem witness_PwmAdvanceCases_command :
    ∃ u, commandPhase 0x70000164 { fwd30 19 with inputs := [cmd 0x70000164] } = .next u ∧ u.pwm.actDir = .stop ∧
      u.pwm.pendValid = true :=
  ⟨_, rfl, by decide, by decide⟩

/-- O52: a rejected APPLY, a STOP word and a word with D = 0; and a state in STOP. -/
theorem witness_StopLatencyIsOneCycle :
    ((0x700000E5#32).extractLsb' 28 4 = 0x7#4 ∧ checkWord (fwd30 19) 0x700000E5 ≠ 0) ∧
      (0x70000005#32).extractLsb' 7 2 = 0#2 ∧ (0x70000080#32).extractLsb' 0 7 = 0#7 ∧ (conf 5).pwm.actDir = .stop := by
  decide

/-- O53: a period of FWD 30 that nothing interrupts. -/
theorem witness_DutyFractionIsExact :
    (fwd30 0).Inv ∧ (fwd30 0).pwm.actDir ≠ .stop ∧ (fwd30 0).pwm.sliceCnt = 0#7 ∧ (fwd30 0).pwm.tickCnt = 0#16 ∧
      ∀ k, k < (fwd30 0).conf.period → ∃ u, (fwd30 0).after k = some u ∧ u.pwm.actDir = (fwd30 0).pwm.actDir :=
  ⟨inv_of_checks (by decide), by decide, by decide, by decide, fun k _ => after_drive rfl (by decide) k⟩

/-- O54: FWD 30 reversed by RETRACT drives BWD 101 cycles later. -/
theorem witness_DirectionChangePassesThroughStop :
    State.Inv { fwd30 19 with inputs := [cmd 0x70000164] } ∧
      ∃ t, State.after 101 { fwd30 19 with inputs := [cmd 0x70000164] } = some t ∧ t.pwm.actDir = .bwd := by
  refine ⟨inv_of_checks (by decide), ?_⟩
  have h1 : ∃ u, step { fwd30 19 with inputs := [cmd 0x70000164] } = .next u ∧ u.inputs = [] ∧
      u.conf.period = 100 ∧ u.pwm.actDir = .stop ∧ u.pwm.stopCnt = 1#23 ∧ u.pwm.pendValid = true ∧
      u.pwm.pendDir = .bwd ∧ u.pwm.lastDir = .fwd :=
    ⟨_, rfl, rfl, by decide, by decide, by decide, by decide, by decide, by decide⟩
  obtain ⟨u, hu, hi, hp, hd, hc, hv, hb, hl⟩ := h1
  obtain ⟨v, hv1, hv2, hv3, hv4, hv5⟩ :=
    after_hold hi hd (by rw [hb, hl]; decide) 99 (by rw [hp, hc]; decide) (by rw [hp]; decide)
  rw [hc] at hv5
  obtain ⟨t, ht, -, ht2⟩ :=
    step_starts hv3 (by rw [hv4]; exact hd) (by rw [hv4]; exact hv) (by rw [hv2, hp, hv5]; decide)
  refine ⟨t, ?_, by rw [ht2, hv4]; exact hb⟩
  rw [after_succ hu, after_snoc, hv1]
  simp [ht]

/-- O55: a reversal with nothing after it. -/
theorem witness_ReversalTakesExactlyOnePeriod :
    State.Inv { fwd30 19 with inputs := [cmd 0x70000164] } ∧ direction .bwd = some .bwd ∧
      State.Undisturbed { fwd30 19 with inputs := [cmd 0x70000164] } 101 ∧
      State.NoCommand { fwd30 19 with inputs := [cmd 0x70000164] } 1 101 := by
  refine ⟨inv_of_checks (by decide), rfl, ?_, ?_⟩
  · intro k _
    cases k with
    | zero => exact ⟨rfl, rfl⟩
    | succ k => exact ⟨rfl, rfl⟩
  · intro k h1 _
    cases k with
    | zero => omega
    | succ k => rfl

/-- O55: the word of the reversal, which is the command of its cycle. -/
theorem witness_ReversalTakesExactlyOnePeriod_word :
    ({ fwd30 19 with inputs := [cmd 0x70000164] } : State).input.command = some (encode (.apply .bwd 100)) ∧
      (fwd30 19).conf.period + 1 = 101 := by decide

/-- O56: from reset, CONF and `APPLY FWD, 30` (vector V36): the drive is active in s_101. -/
theorem witness_FirstDriveAfterResetWaitsOnePeriod :
    ∃ t, State.after 101
        { State.reset with
          inputs :=
            [cmd 0x10000001, cmd 0x20000003, cmd 0x30000001, cmd 0x40000001, cmd 0x50000000, cmd 0x7000009E] } =
          some t ∧ t.pwm.actDir = .fwd := by
  have h1 : ∃ u, State.after 6
      { State.reset with
        inputs :=
          [cmd 0x10000001, cmd 0x20000003, cmd 0x30000001, cmd 0x40000001, cmd 0x50000000, cmd 0x7000009E] } =
        some u ∧ u.inputs = [] ∧ u.conf.period = 100 ∧ u.pwm.actDir = .stop ∧ u.pwm.stopCnt = 6#23 ∧
        u.pwm.pendValid = true ∧ u.pwm.pendDir = .fwd ∧ u.pwm.lastDir = .unknown :=
    ⟨_, rfl, rfl, by decide, by decide, by decide, by decide, by decide, by decide⟩
  obtain ⟨u, hu, hi, hp, hd, hc, hv, hb, hl⟩ := h1
  obtain ⟨v, hv1, hv2, hv3, hv4, hv5⟩ :=
    after_hold hi hd (by rw [hb, hl]; decide) 94 (by rw [hp, hc]; decide) (by rw [hp]; decide)
  rw [hc] at hv5
  obtain ⟨t, ht, -, ht2⟩ :=
    step_starts hv3 (by rw [hv4]; exact hd) (by rw [hv4]; exact hv) (by rw [hv2, hp, hv5]; decide)
  refine ⟨t, ?_, by rw [ht2, hv4]; exact hb⟩
  rw [show (101 : Nat) = 6 + (94 + 1) from rfl, after_add, hu, Option.bind_some, after_snoc, hv1]
  simp [ht]

/-- O57: two states with the same configuration and bus, one driving and one reading. -/
theorem witness_EnginesDoNotInteract :
    (fwd30 19).conf = (reading .low 6 0 true).conf ∧ (fwd30 19).input.sameBus (reading .low 6 0 true).input ∧
      (∃ t, step (fwd30 19) = .next t) ∧ ∃ t, step (reading .low 6 0 true) = .next t :=
  ⟨rfl, by decide, ⟨_, step_of_nil rfl⟩, _, rfl⟩

/-- O58: a CFG command after the lock. -/
theorem witness_LockedConfigurationIsFrozen :
    (∃ t, step { conf 5 with inputs := [cmd 0x10000002] } = .next t) ∧
      ({ conf 5 with inputs := [cmd 0x10000002] } : State).input.rst = false ∧ (conf 5).conf.locked = true :=
  ⟨⟨_, rfl⟩, rfl, rfl⟩

/-- O59: the smallest and the largest legal values. -/
theorem witness_BootSequenceLocks :
    (1#2 ≠ 0#2 ∧ 1#8 ≠ 0#8 ∧ 1#16 ≠ 0#16) ∧ (3#2 ≠ 0#2 ∧ 255#8 ≠ 0#8 ∧ 65535#16 ≠ 0#16) := by decide

/-- O60 with m = 0: a start in the last direction, and one with the hold just elapsed. -/
theorem witness_StartFromStopTakesTheRestOfTheHold_at_once :
    (State.Inv
        { conf 3 with pwm := { Pwm.reset with lastDir := .fwd, stopCnt := 3 }, inputs := [cmd 0x700000B2] } ∧
      (0 = if LastDir.ofDir .fwd = LastDir.fwd then 0 else (conf 3).conf.period - 3)) ∧
    (State.Inv { conf 100 with inputs := [cmd 0x700000B2] } ∧
      (0 = if LastDir.ofDir .fwd = (conf 100).pwm.lastDir then 0
        else (conf 100).conf.period - (conf 100).pwm.stopCnt.toNat)) ∧
    State.Undisturbed { conf 100 with inputs := [cmd 0x700000B2] } 1 ∧
    State.Undisturbed
      { conf 3 with pwm := { Pwm.reset with lastDir := .fwd, stopCnt := 3 }, inputs := [cmd 0x700000B2] } 1 ∧
    State.NoCommand { conf 100 with inputs := [cmd 0x700000B2] } 1 1 ∧
    State.NoCommand
      { conf 3 with pwm := { Pwm.reset with lastDir := .fwd, stopCnt := 3 }, inputs := [cmd 0x700000B2] } 1 1 ∧
    encode (.apply .fwd 50) = 0x700000B2#32 := by
  refine ⟨⟨inv_of_checks (by decide), by decide⟩, ⟨inv_of_checks (by decide), by decide⟩, ?_, ?_, ?_, ?_, by decide⟩
  · intro k hk; interval_cases k; exact ⟨rfl, rfl⟩
  · intro k hk; interval_cases k; exact ⟨rfl, rfl⟩
  · intro k h1 h2; omega
  · intro k h1 h2; omega

/-- O60 with m = 1: a start one cycle before the hold elapses. -/
theorem witness_StartFromStopTakesTheRestOfTheHold :
    State.Inv { conf 99 with inputs := [cmd 0x7000009E] } ∧
      State.Undisturbed { conf 99 with inputs := [cmd 0x7000009E] } 2 ∧
      State.NoCommand { conf 99 with inputs := [cmd 0x7000009E] } 1 2 ∧
      ({ conf 99 with inputs := [cmd 0x7000009E] } : State).input.command = some (encode (.apply .fwd 30)) ∧
      (1 = if LastDir.ofDir .fwd = (conf 99).pwm.lastDir then 0
        else (conf 99).conf.period - (conf 99).pwm.stopCnt.toNat) := by
  refine ⟨inv_of_checks (by decide), ?_, ?_, by decide, by decide⟩
  · intro k hk; interval_cases k <;> exact ⟨rfl, rfl⟩
  · intro k h1 h2; interval_cases k; rfl

end Sys2Proof.Tests
end

section
namespace Sys2Proof.Machine

/-! ## The machine's invariant, component by component

`State.Inv` speaks of the configuration with one engine at a time, or of the error record alone. Split along these
components it is kept by each command and by each engine for a reason of that component only. -/

/-! ### Pins (10_state.md R33, 41_pwm_generator.md R118) -/

theorem State.sck_iff (s : State) : s.sck = true ↔ s.deser.rdState = .high := by simp [State.sck]

theorem State.pwmOn_iff (s : State) : s.pwmOn = true ↔ s.pwm.sliceCnt.toNat < s.pwm.actDuty.toNat := by
  simp [State.pwmOn, BitVec.lt_def]

theorem State.dirA_iff (s : State) :
    s.dirA = true ↔ s.pwm.actDir = .bwd ∧ s.pwm.sliceCnt.toNat < s.pwm.actDuty.toNat := by
  simp [State.dirA, State.pwmOn_iff]

theorem State.dirB_iff (s : State) :
    s.dirB = true ↔ s.pwm.actDir = .fwd ∧ s.pwm.sliceCnt.toNat < s.pwm.actDuty.toNat := by
  simp [State.dirB, State.pwmOn_iff]

/-- The two lines are never high together, because one direction is active at a time. -/
theorem State.notBothHigh (s : State) : s.NotBothHigh := by
  rw [State.NotBothHigh, s.dirA_iff, s.dirB_iff]
  rintro ⟨⟨hb, -⟩, hf, -⟩
  rw [hb] at hf
  cases hf

/-- Settles O38. -/
theorem pinsFollowTheState : Obligations.PinsFollowTheState := fun s =>
  ⟨s.sck_iff, s.dirA_iff, s.dirB_iff, s.notBothHigh⟩

/-! ### Sign-extended samples (10_state.md R24) -/

/-- Bit `i` of a sign-extended 24-bit number: above bit 22 each is the sign. -/
theorem sext32_getLsbD (v : BitVec 24) {i : Nat} (hi : i < 32) : (sext32 v).getLsbD i = v.getLsbD (min i 23) := by
  simp only [sext32, BitVec.getLsbD_signExtend, hi, decide_true, Bool.true_and]
  split
  · rw [min_eq_left (by omega)]
  · rw [min_eq_right (by omega)]; rfl

/-- A word's bits 31 to 23 are all equal exactly when it is a sign-extended 24-bit number. -/
theorem sampleOk_iff_sext32 (x : Word) :
    x.extractLsb' 23 9 = 0#9 ∨ x.extractLsb' 23 9 = 0x1FF#9 ↔ ∃ v, x = sext32 v := by
  have hbit : ∀ i, i < 9 → (x.extractLsb' 23 9).getLsbD i = x.getLsbD (23 + i) := fun i hi => by simp [hi]
  constructor
  · intro h
    have hsign : ∀ i, i < 9 → x.getLsbD (23 + i) = x.getLsbD 23 := fun i hi => by
      rw [← hbit i hi, show x.getLsbD 23 = _ from (hbit 0 (by omega)).symm]
      obtain h | h := h <;> rw [h] <;> interval_cases i <;> rfl
    refine ⟨x.extractLsb' 0 24, BitVec.eq_of_getLsbD_eq fun i hi => ?_⟩
    rw [sext32_getLsbD _ hi]
    by_cases h24 : i < 24
    · simp [h24, show min i 23 = i by omega]
    · obtain ⟨j, rfl⟩ := Nat.exists_eq_add_of_le (show 23 ≤ i by omega)
      simp [hsign j (by omega)]
  · rintro ⟨v, rfl⟩
    have hsign : ∀ i, i < 9 → ((sext32 v).extractLsb' 23 9).getLsbD i = v.getLsbD 23 := fun i hi => by
      rw [hbit i hi, sext32_getLsbD v (by omega), min_eq_right (by omega)]
    cases hv : v.getLsbD 23
    · exact .inl (BitVec.eq_of_getLsbD_eq fun i hi => by rw [hsign i hi, hv]; simp)
    · exact .inr (BitVec.eq_of_getLsbD_eq fun i hi => by rw [hsign i hi, hv]; interval_cases i <;> rfl)

/-- A sign-extended sample is a 24-bit number as an integer. -/
theorem sext32_range (v : BitVec 24) : -2 ^ 23 ≤ (sext32 v).toInt ∧ (sext32 v).toInt ≤ 2 ^ 23 - 1 := by
  have hlow := v.le_toInt
  have hhigh := v.toInt_lt
  rw [sext32, BitVec.toInt_signExtend_of_le (by omega)]
  omega

/-! ### The components of the invariant -/

/-- What the invariant says of the configuration: LOCK checked it (42_control.md R123). -/
def Conf.Inv (c : Conf) : Prop :=
  c.locked = true → c.cfgExtra ≠ 0#2 ∧ c.cfgSckHalf ≠ 0#8 ∧ c.cfgSlice ≠ 0#16

/-- What the invariant says of the PWM generator under its configuration (10_state.md R27 to R30, R37). -/
structure Pwm.Inv (c : Conf) (p : Pwm) : Prop where
  stop_iff : p.actDir = .stop ↔ p.actDuty = 0#7
  duty_le : p.actDuty.toNat ≤ 100
  slice_le : p.sliceCnt.toNat ≤ 99
  pend : p.pendValid = true → p.pendDir ≠ .stop ∧ 1 ≤ p.pendDuty.toNat ∧ p.pendDuty.toNat ≤ 100
  unlocked : c.locked = false → p.actDir = .stop ∧ p.pendValid = false
  stopped : p.actDir = .stop → p.sliceCnt = 0#7 ∧ p.tickCnt = 0#16
  tick_lt : p.actDir ≠ .stop → p.tickCnt.toNat < c.cfgSlice.toNat
  noPend : p.pendValid = false → p.pendDir = .stop ∧ p.pendDuty = 0#7
  drive : p.actDir ≠ .stop → p.lastDir = LastDir.ofDir p.actDir ∧ (p.pendValid = true → p.pendDir = p.actDir)

/-- What the invariant says of the deserializer under its configuration (10_state.md R19 to R26, R37). -/
structure Deser.Inv (c : Conf) (d : Deser) : Prop where
  busyLocked : d.rdState ≠ .idle → c.locked = true
  sample : ∃ v, d.sample = sext32 v
  half_unlocked : c.locked = false → d.halfCnt = 0#8
  half_locked : c.locked = true → d.halfCnt.toNat < c.cfgSckHalf.toNat
  wait : d.rdState = .wait → d.waitCnt.toNat ≤ c.cfgTimeout.toNat ∧ d.pulseCnt = 0#5
  high : d.rdState = .high → d.pulseCnt.toNat < c.pulses
  low : d.rdState = .low → 1 ≤ d.pulseCnt.toNat ∧ d.pulseCnt.toNat ≤ c.pulses
  pulse_le : d.pulseCnt.toNat ≤ 27
  noOutcome : d.rdState ≠ .idle → d.valid = false ∧ d.nrdy = false
  oneOutcome : ¬(d.valid = true ∧ d.nrdy = true)

/-- What the invariant says of the error record (10_state.md R37 item 6). -/
def Err.Inv (e : Err) : Prop := e.cmdErr = false ↔ e.errCode = .none

/-- The invariant is the conjunction of its components'. -/
theorem State.inv_iff (s : State) :
    s.Inv ↔ s.conf.Inv ∧ s.pwm.Inv s.conf ∧ s.deser.Inv s.conf ∧ s.err.Inv := by
  constructor
  · rintro ⟨⟨⟨h1, h2, h3⟩, -, hpend, hunlocked, hbusy, herr, hsample⟩, ⟨hstop, htick, hnone⟩, hdrive, hconf,
      ⟨hu, hl, hw, hh, hlow, hp⟩, ho, ho'⟩
    exact ⟨hconf, ⟨h1, h2, h3, hpend, fun h => (hunlocked h).imp_right And.left, hstop, htick, hnone, hdrive⟩,
      ⟨hbusy, (sampleOk_iff_sext32 _).1 hsample, hu, hl, hw, hh, hlow, hp, ho, ho'⟩, herr⟩
  · rintro ⟨hconf, hp, hd, herr⟩
    have hunlocked : s.UnlockedOk := fun h =>
      ⟨(hp.unlocked h).1, (hp.unlocked h).2, by_contra fun hi => by simp [hd.busyLocked hi] at h⟩
    exact
      { dutyOk := ⟨hp.stop_iff, hp.duty_le, hp.slice_le⟩
        notBothHigh := s.notBothHigh
        pendOk := hp.pend
        unlockedOk := hunlocked
        busyLocked := hd.busyLocked
        errOk := herr
        sampleOk := (sampleOk_iff_sext32 _).2 hd.sample
        pwmCountersOk := ⟨hp.stopped, hp.tick_lt, hp.noPend⟩
        driveOk := hp.drive
        lockedConfOk := hconf
        readCountersOk := ⟨hd.half_unlocked, hd.half_locked, hd.wait, hd.high, hd.low, hd.pulse_le⟩
        outcomeOk := ⟨hd.noOutcome, hd.oneOutcome⟩ }

/-! ### Reset -/

theorem Conf.inv_reset : Conf.reset.Inv := by simp [Conf.Inv, Conf.reset]

theorem Pwm.inv_reset : Pwm.reset.Inv Conf.reset := by constructor <;> decide

theorem Deser.inv_reset : Deser.reset.Inv Conf.reset where
  sample := ⟨0#24, by decide⟩
  busyLocked := by decide
  half_unlocked := by decide
  half_locked := by decide
  wait := by decide
  high := by decide
  low := by decide
  pulse_le := by decide
  noOutcome := by decide
  oneOutcome := by decide

theorem Err.inv_reset : Err.reset.Inv := by simp [Err.Inv, Err.reset]

/-- The invariant holds of the reset state whatever inputs are to come and whatever the cycle's number. -/
theorem State.inv_reset (l : List Input) (n : Nat) : State.Inv { State.reset with inputs := l, cycle := n } :=
  (State.inv_iff _).2 ⟨Conf.inv_reset, Pwm.inv_reset, Deser.inv_reset, Err.inv_reset⟩

/-- Settles O41. -/
theorem invariantHoldsAtReset : Obligations.InvariantHoldsAtReset := State.inv_reset [] 0

/-! ### The PWM generator keeps its part -/

/-- Before the lock nothing of the generator depends on the configuration. -/
theorem Pwm.Inv.reconfigure {c : Conf} {p : Pwm} (h : p.Inv c) (hl : c.locked = false) (c' : Conf) : p.Inv c' :=
  { h with
    unlocked := fun _ => h.unlocked hl
    tick_lt := fun hs => absurd (h.unlocked hl).1 hs }

theorem Pwm.Inv.clearPend {c : Conf} {p : Pwm} (h : p.Inv c) : p.clearPend.Inv c :=
  { h with
    pend := by simp
    unlocked := fun hl => ⟨(h.unlocked hl).1, rfl⟩
    noPend := fun _ => ⟨rfl, rfl⟩
    drive := fun hs => ⟨(h.drive hs).1, by simp⟩ }

/-- A legal drive command may be pending in STOP, or beside a drive of its own direction. -/
theorem Pwm.Inv.setPend {c : Conf} {p : Pwm} (h : p.Inv c) {d : Dir} {duty : BitVec 7} (hl : c.locked = true)
    (hd : d ≠ .stop) (hD : duty ≠ 0#7) (hle : duty.toNat ≤ 100) (hdir : p.actDir = .stop ∨ d = p.actDir) :
    (p.setPend d duty).Inv c :=
  { h with
    pend := fun _ => ⟨hd, Nat.pos_of_ne_zero fun h0 => hD (BitVec.eq_of_toNat_eq h0), hle⟩
    unlocked := by simp [hl]
    noPend := by simp
    drive := fun hs => ⟨(h.drive hs).1, fun _ => hdir.resolve_left hs⟩ }

/-- Taking the drive off, with what it leaves of `last_dir` and `stop_cnt` remembered. -/
theorem Pwm.Inv.driveOff {c : Conf} {p : Pwm} (h : p.Inv c) : p.driveOff.Inv c :=
  { h with
    stop_iff := by simp
    duty_le := by simp
    slice_le := by simp
    unlocked := fun hl => ⟨rfl, (h.unlocked hl).2⟩
    stopped := by simp
    tick_lt := by simp
    drive := by simp }

theorem Pwm.Inv.markDriveEnd_driveOff {c : Conf} {p : Pwm} (h : p.Inv c) : p.markDriveEnd.driveOff.Inv c :=
  { h.driveOff with drive := by simp }

theorem Pwm.Inv.stopIntake {c : Conf} {p : Pwm} (h : p.Inv c) : p.stopIntake.Inv c := by
  unfold Pwm.stopIntake
  split
  · exact (h.markDriveEnd_driveOff).clearPend
  · exact h.driveOff.clearPend

/-- The intake of an accepted APPLY, in each of its four shapes. -/
theorem Pwm.Inv.applyIntake {c : Conf} {p : Pwm} (h : p.Inv c) {d : Dir} {duty : BitVec 7} (hl : c.locked = true)
    (hle : duty.toNat ≤ 100) : (p.applyIntake d duty).Inv c := by
  obtain he | ⟨hd, hD, ⟨he, hdir⟩ | he | ⟨he, -, -⟩⟩ := p.applyIntake_cases d duty <;> rw [he]
  · exact h.stopIntake
  · exact h.setPend hl hd hD hle hdir
  · exact h.clearPend
  · exact (h.markDriveEnd_driveOff).setPend hl hd hD hle (.inl rfl)

/-! LOCK checked the configured lengths; a drive, active or pending, exists only once the block is locked. -/

theorem Conf.Inv.slice_pos {c : Conf} (hc : c.Inv) (hl : c.locked = true) : 0 < c.cfgSlice.toNat :=
  Nat.pos_of_ne_zero fun h0 => (hc hl).2.2 (BitVec.eq_of_toNat_eq h0)

theorem Conf.Inv.half_pos {c : Conf} (hc : c.Inv) (hl : c.locked = true) : 0 < c.cfgSckHalf.toNat :=
  Nat.pos_of_ne_zero fun h0 => (hc hl).2.1 (BitVec.eq_of_toNat_eq h0)

theorem Conf.pulses_le (c : Conf) : c.pulses ≤ 27 := by
  have := c.cfgExtra.isLt
  simp only [Conf.pulses]
  omega

theorem Pwm.Inv.locked_of_pend {c : Conf} {p : Pwm} (h : p.Inv c) (hv : p.pendValid = true) : c.locked = true := by
  by_contra hl
  simp [(h.unlocked (by simpa using hl)).2] at hv

theorem Pwm.Inv.locked_of_drive {c : Conf} {p : Pwm} (h : p.Inv c) (hs : p.actDir ≠ .stop) : c.locked = true := by
  by_contra hl
  exact hs (h.unlocked (by simpa using hl)).1

/-- A duty of at least 1 is not 0. -/
theorem duty_ne_zero {duty : BitVec 7} (h : 1 ≤ duty.toNat) : duty ≠ 0#7 := by
  rintro rfl
  simp at h

/-- A pending drive that may start becomes the active one. -/
theorem Pwm.Inv.advance_starts {c : Conf} {p : Pwm} (h : p.Inv c) (hc : c.Inv) (hs : p.actDir = .stop)
    (hm : p.mayStart c = true) : (p.advance c).Inv c := by
  have hv := ((Pwm.mayStart_iff c p).1 hm).1
  have hl := h.locked_of_pend hv
  obtain ⟨hdir, hpos, hle⟩ := h.pend hv
  rw [Pwm.advance_starts hs hm]
  exact
    { stop_iff := iff_of_false hdir (duty_ne_zero hpos)
      duty_le := hle
      slice_le := by simp
      pend := by simp
      unlocked := by simp [hl]
      stopped := fun h0 => absurd h0 hdir
      tick_lt := fun _ => hc.slice_pos hl
      noPend := fun _ => ⟨rfl, rfl⟩
      drive := fun _ => ⟨rfl, by simp⟩ }

/-- The duty the period boundary leaves, a pending one or the active one, is legal. -/
theorem Pwm.Inv.adopted_duty {c : Conf} {p : Pwm} (h : p.Inv c) (hs : p.actDir ≠ .stop) :
    (if p.pendValid then p.pendDuty else p.actDuty) ≠ 0#7 ∧
      (if p.pendValid then p.pendDuty else p.actDuty).toNat ≤ 100 := by
  split
  · next hv =>
    obtain ⟨-, hpos, hle⟩ := h.pend hv
    exact ⟨duty_ne_zero hpos, hle⟩
  · exact ⟨mt h.stop_iff.2 hs, h.duty_le⟩

/-- At the period boundary a pending duty becomes the active one. -/
theorem Pwm.Inv.advance_boundary {c : Conf} {p : Pwm} (h : p.Inv c) (hc : c.Inv) (hs : p.actDir ≠ .stop)
    (ht : ¬p.tickCnt.toNat + 1 < c.cfgSlice.toNat) (hsl : ¬p.sliceCnt < 99#7) : (p.advance c).Inv c := by
  have hl := h.locked_of_drive hs
  obtain ⟨hne, hle⟩ := h.adopted_duty hs
  rw [Pwm.advance_boundary hs ht hsl]
  exact
    { stop_iff := iff_of_false hs hne
      duty_le := hle
      slice_le := by simp
      pend := by simp
      unlocked := by simp [hl]
      stopped := fun h0 => absurd h0 hs
      tick_lt := fun _ => hc.slice_pos hl
      noPend := fun _ => by cases hv : p.pendValid <;> simp [h.noPend, hv]
      drive := fun _ => ⟨(h.drive hs).1, by simp⟩ }

/-- `PwmAdvance` keeps the generator's part, in each case of 41_pwm_generator.md R112. -/
theorem Pwm.Inv.advance {c : Conf} {p : Pwm} (h : p.Inv c) (hc : c.Inv) : (p.advance c).Inv c := by
  by_cases hs : p.actDir = .stop
  · by_cases hm : p.mayStart c = true
    · exact h.advance_starts hc hs hm
    · rw [Pwm.advance_holds hs hm]
      exact { h with }
  · by_cases ht : p.tickCnt.toNat + 1 < c.cfgSlice.toNat
    · rw [Pwm.advance_tick hs ht]
      exact { h with
        stopped := fun h0 => absurd h0 hs
        tick_lt := fun _ => by rw [BitVec.toNat_add]; exact (Nat.mod_le _ _).trans_lt ht }
    · by_cases hsl : p.sliceCnt < 99#7
      · rw [Pwm.advance_slice hs ht hsl]
        exact { h with
          slice_le := by bv_omega
          stopped := fun h0 => absurd h0 hs
          tick_lt := fun _ => hc.slice_pos (h.locked_of_drive hs) }
      · exact h.advance_boundary hc hs ht hsl

/-! ### The deserializer keeps its part -/

/-- Before the lock no read is in progress, so a configuration write touches nothing of the deserializer's part; LOCK
itself needs a configured `cfg_sck_half`. -/
theorem Deser.Inv.reconfigure {c : Conf} {d : Deser} (h : d.Inv c) (hl : c.locked = false) {c' : Conf} (hc' : c'.Inv) :
    d.Inv c' := by
  have hidle : d.rdState = .idle := by_contra fun hb => by simp [h.busyLocked hb] at hl
  have hhalf : d.halfCnt = 0#8 := h.half_unlocked hl
  exact
    { h with
      busyLocked := fun hb => absurd hidle hb
      half_unlocked := fun _ => hhalf
      half_locked := fun hl' => by rw [hhalf]; exact hc'.half_pos hl'
      wait := by simp [hidle]
      high := by simp [hidle]
      low := by simp [hidle] }

theorem Deser.Inv.startRead {c : Conf} {d : Deser} (h : d.Inv c) (hc : c.Inv) (hl : c.locked = true) :
    d.startRead.Inv c :=
  { h with
    busyLocked := fun _ => hl
    half_unlocked := fun _ => rfl
    half_locked := hc.half_pos
    wait := fun _ => ⟨Nat.zero_le _, rfl⟩
    high := by simp [Deser.startRead]
    low := by simp [Deser.startRead]
    pulse_le := Nat.zero_le _
    noOutcome := fun _ => ⟨rfl, rfl⟩
    oneOutcome := by simp [Deser.startRead] }

theorem Deser.advance_idle {c : Conf} {d : Deser} (b : Bool) (h : d.rdState = .idle) : d.advance c b = d := by
  simp [Deser.advance, h]

/-- The ready check: R83. -/
theorem Deser.Inv.advance_wait {c : Conf} {d : Deser} (h : d.Inv c) (hc : c.Inv) (b : Bool) (hw : d.rdState = .wait) :
    (d.advance c b).Inv c := by
  have hbusy : d.rdState ≠ .idle := by simp [hw]
  have hl := h.busyLocked hbusy
  obtain ⟨hcnt, hpulse⟩ := h.wait hw
  rw [Deser.advance_wait b hw]
  split
  · exact
      { h with
        busyLocked := fun _ => hl
        half_unlocked := fun _ => rfl
        half_locked := hc.half_pos
        wait := by simp
        high := fun _ => by simp [hpulse, Conf.pulses]
        low := by simp
        noOutcome := fun _ => h.noOutcome hbusy }
  · split
    · exact
        { h with
          busyLocked := by simp
          wait := by simp
          high := by simp
          low := by simp
          noOutcome := by simp
          oneOutcome := by simp [(h.noOutcome hbusy).1] }
    · next hne =>
      exact
        { h with
          wait := fun _ => ⟨by bv_omega, hpulse⟩ }

/-- A cycle inside a HIGH or LOW phase. -/
theorem Deser.Inv.advance_phase {c : Conf} {d : Deser} (h : d.Inv c) (b : Bool)
    (hr : d.rdState = .high ∨ d.rdState = .low) (hp : d.halfCnt.toNat + 1 < c.cfgSckHalf.toNat) :
    (d.advance c b).Inv c := by
  have hl : c.locked = true := h.busyLocked (by rintro hi; simp [hi] at hr)
  rw [Deser.advance_phase b hr hp]
  exact
    { h with
      half_unlocked := by simp [hl]
      half_locked := fun _ => by rw [BitVec.toNat_add]; exact (Nat.mod_le _ _).trans_lt hp }

/-- `DeserAdvance` keeps the deserializer's part, in each case of 40_adc_deserializer.md R82 to R88. -/
theorem Deser.Inv.advance {c : Conf} {d : Deser} (h : d.Inv c) (hc : c.Inv) (b : Bool) : (d.advance c b).Inv c := by
  cases hr : d.rdState with
  | idle => rwa [Deser.advance_idle b hr]
  | wait => exact h.advance_wait hc b hr
  | high =>
    have hbusy : d.rdState ≠ .idle := by simp [hr]
    have hl := h.busyLocked hbusy
    have hlt := h.high hr
    have hle : c.pulses ≤ 27 := c.pulses_le
    by_cases hp : d.halfCnt.toNat + 1 < c.cfgSckHalf.toNat
    · exact h.advance_phase b (.inl hr) hp
    · have hsucc : (d.pulseCnt + 1).toNat = d.pulseCnt.toNat + 1 := by bv_omega
      rw [Deser.advance_fall b hr hp]
      exact
        { h with
          busyLocked := fun _ => hl
          half_unlocked := fun _ => rfl
          half_locked := hc.half_pos
          wait := by simp
          high := by simp
          low := fun _ => by rw [hsucc]; omega
          pulse_le := by rw [hsucc]; omega
          noOutcome := fun _ => h.noOutcome hbusy }
  | low =>
    have hbusy : d.rdState ≠ .idle := by simp [hr]
    have hl := h.busyLocked hbusy
    by_cases hp : d.halfCnt.toNat + 1 < c.cfgSckHalf.toNat
    · exact h.advance_phase b (.inr hr) hp
    · by_cases hm : d.pulseCnt.toNat < c.pulses
      · rw [Deser.advance_rise b hr hp hm]
        exact
          { h with
            busyLocked := fun _ => hl
            half_unlocked := fun _ => rfl
            half_locked := hc.half_pos
            wait := by simp
            high := fun _ => hm
            low := by simp
            noOutcome := fun _ => h.noOutcome hbusy }
      · rw [Deser.advance_complete b hr hp hm]
        exact
          { h with
            busyLocked := by simp
            sample := ⟨d.acc, rfl⟩
            wait := by simp
            high := by simp
            low := by simp
            noOutcome := by simp
            oneOutcome := by simp [(h.noOutcome hbusy).2] }

/-! ### Commands and steps keep the invariant -/

theorem Conf.inv_of_unlocked {c : Conf} (hl : c.locked = false) : c.Inv := by simp [Conf.Inv, hl]

theorem State.recordError_errInv {s : State} (h : s.err.Inv) {c : ErrCode} (hc : c ≠ .none) :
    (s.recordError c).err.Inv := by
  rw [State.recordError_err]
  split
  · exact h
  · simp [Err.Inv, hc]

/-- A write to the configuration, LOCK's or a configuration command's, needs an unlocked block and a new configuration
that LOCK would have checked. -/
theorem State.Inv.reconfigure {s t : State} (h : s.Inv) (hl : s.conf.locked = false) (hc : t.conf.Inv)
    (hp : t.pwm = s.pwm) (hd : t.deser = s.deser) (he : t.err = s.err) : t.Inv := by
  obtain ⟨-, hpwm, hdeser, herr⟩ := s.inv_iff.1 h
  rw [State.inv_iff, hp, hd, he]
  exact ⟨hc, hpwm.reconfigure hl _, hdeser.reconfigure hl hc, herr⟩

/-- Every command keeps the invariant. -/
theorem Effect.inv {s t : State} (he : Effect s t) (h : s.Inv) : t.Inv := by
  have hs := s.inv_iff.1 h
  obtain ⟨hconf, hpwm, hdeser, herr⟩ := hs
  cases he with
  | same => exact h
  | cleared => exact (State.inv_iff _).2 ⟨hconf, hpwm, hdeser, by simp [Err.Inv]⟩
  | rejected c hc =>
    rw [State.inv_iff]
    simpa using ⟨hconf, hpwm, hdeser, State.recordError_errInv herr hc⟩
  | rejectedApply c hc =>
    rw [State.inv_iff]
    simpa using ⟨hconf, hpwm.stopIntake, hdeser, State.recordError_errInv herr hc⟩
  | extra n hl => exact h.reconfigure hl (Conf.inv_of_unlocked hl) rfl rfl rfl
  | timeout v hl => exact h.reconfigure hl (Conf.inv_of_unlocked hl) rfl rfl rfl
  | sckHalf v hl => exact h.reconfigure hl (Conf.inv_of_unlocked hl) rfl rfl rfl
  | slice p hl => exact h.reconfigure hl (Conf.inv_of_unlocked hl) rfl rfl rfl
  | locked hl hx hh hsl => exact h.reconfigure hl (fun _ => ⟨hx, hh, hsl⟩) rfl rfl rfl
  | readStarted hl hi => exact (State.inv_iff _).2 ⟨hconf, hpwm, hdeser.startRead hconf hl, herr⟩
  | applied d duty hl hD => exact (State.inv_iff _).2 ⟨hconf, hpwm.applyIntake hl hD, hdeser, herr⟩

/-- While a read is in progress a command leaves it and the configuration alone, so the deserializer's advance from the
state before the command (10_state.md R36) is its advance from the state after it. -/
theorem enginePhase_deser_of_effect {s t : State} (he : Effect s t) (h : s.Inv) :
    (enginePhase s t).deser = t.deser ∨ (enginePhase s t).deser = t.deser.advance t.conf s.dout := by
  by_cases hi : s.deser.rdState = .idle
  · exact .inl (enginePhase_deser_idle t hi)
  · have hd : t.deser = s.deser := he.deser.resolve_right fun hr => hi hr.1
    rw [hd, he.conf_of_locked (h.busyLocked hi)]
    exact .inr (enginePhase_deser_busy t hi)

/-- The engine phase after a command keeps the invariant. -/
theorem enginePhase_inv {s t : State} (he : Effect s t) (h : s.Inv) : (enginePhase s t).Inv := by
  obtain ⟨hconf, hpwm, hdeser, herr⟩ := t.inv_iff.1 (he.inv h)
  refine (State.inv_iff _).2 ⟨hconf, hpwm.advance hconf, ?_, herr⟩
  obtain hd | hd := enginePhase_deser_of_effect he h <;> rw [hd]
  · exact hdeser
  · exact hdeser.advance hconf s.dout

/-- Settles O42: reset establishes the invariant, and every command phase with its engine phase keeps it. -/
theorem invariantIsKeptByEveryStep : Obligations.InvariantIsKeptByEveryStep := by
  intro s t h hstep
  obtain ⟨-, rfl⟩ | ⟨-, rfl⟩ := step_cases hstep
  · exact State.inv_reset _ _
  · exact enginePhase_inv s.postCommand_effect h

/-- The invariant holds along every run from a state that meets it. -/
theorem after_inv {s u : State} (h : s.Inv) {k : Nat} (hu : s.after k = some u) : u.Inv := by
  induction k generalizing s with
  | zero => cases hu; exact h
  | succ k ih =>
    obtain ⟨t, ht, hu⟩ := after_succ_cases hu
    exact ih (invariantIsKeptByEveryStep s t h ht) hu

/-- Settles O43. -/
theorem sevenInvariantsHoldInEveryReachableState : Obligations.SevenInvariantsHoldInEveryReachableState :=
  fun l _ _ h => (after_inv (State.inv_reset l 0) h).toSevenInvariants

/-! ## The step's composition (10_state.md R36) -/

/-- The engine phase as R36 writes it, with the IDLE deserializer's fields those of the command phase. -/
theorem enginePhase_eq (s t : State) :
    enginePhase s t =
      { t with
        deser := if s.deser.rdState = .idle then t.deser else s.deser.advance s.conf s.dout
        pwm := t.pwm.advance t.conf
        inputs := s.inputs.tail
        cycle := s.cycle + 1 } := by
  simp [enginePhase]

/-- Settles O8. -/
theorem stepRunsDecodedCommand : Obligations.StepRunsDecodedCommand := by
  intro s hs
  refine ⟨fun w i t hw hdec hexec => ?_, fun hnone => ?_⟩
  · have hphase : commandPhase w s = .next t := by simp only [commandPhase, hdec, hexec]
    rw [step_admitted hs, State.postCommand_some hw hphase, enginePhase_eq]
  · rw [step_admitted hs, State.postCommand_none hnone, enginePhase_eq]

/-! ## The sample (10_state.md R24) -/

/-- The deserializer's advance keeps `sample`, or completes the read. -/
theorem Deser.advance_sample (c : Conf) (d : Deser) (b : Bool) :
    (d.advance c b).sample = d.sample ∨
      (d.rdState = .low ∧ (d.advance c b).rdState = .idle ∧ (d.advance c b).valid = true ∧
        (d.advance c b).sample = sext32 d.acc) := by
  cases hr : d.rdState with
  | idle => rw [Deser.advance_idle b hr]; exact .inl rfl
  | wait =>
    rw [Deser.advance_wait b hr]
    split
    · exact .inl rfl
    · split <;> exact .inl rfl
  | high =>
    by_cases hp : d.halfCnt.toNat + 1 < c.cfgSckHalf.toNat
    · rw [Deser.advance_phase b (.inl hr) hp]; exact .inl rfl
    · rw [Deser.advance_fall b hr hp]; exact .inl rfl
  | low =>
    by_cases hp : d.halfCnt.toNat + 1 < c.cfgSckHalf.toNat
    · rw [Deser.advance_phase b (.inr hr) hp]; exact .inl rfl
    · by_cases hm : d.pulseCnt.toNat < c.pulses
      · rw [Deser.advance_rise b hr hp hm]; exact .inl rfl
      · rw [Deser.advance_complete b hr hp hm]; exact .inr ⟨rfl, rfl, rfl, rfl⟩

/-- No command writes `sample`. -/
theorem Effect.sample {s t : State} (h : Effect s t) : t.deser.sample = s.deser.sample := by
  obtain hd | ⟨-, -, hd⟩ := h.deser <;> rw [hd]
  rfl

/-- Settles O48. -/
theorem sampleChangesOnlyAtCompletion : Obligations.SampleChangesOnlyAtCompletion := by
  intro s t hstep
  refine ⟨fun hr => ?_, fun hr => ?_, fun hinv => ?_⟩
  · obtain ⟨-, rfl⟩ | ⟨⟨hr', -⟩, -⟩ := step_cases hstep
    · rfl
    · simp [hr] at hr'
  · obtain ⟨hr', -⟩ | ⟨-, rfl⟩ := step_cases hstep
    · simp [hr] at hr'
    · by_cases hi : s.deser.rdState = .idle
      · rw [enginePhase_deser_idle _ hi]
        exact .inl s.postCommand_effect.sample
      · rw [enginePhase_deser_busy _ hi]
        exact s.deser.advance_sample s.conf s.dout
  · obtain ⟨v, hv⟩ := (sampleOk_iff_sext32 _).1 (invariantIsKeptByEveryStep s t hinv hstep).sampleOk
    rw [hv]
    exact ⟨⟨v, rfl⟩, sext32_range v⟩

end Sys2Proof.Machine
end

section
namespace Sys2Proof.Machine

/-! ## Register layouts (10_state.md R34, R35)

A register is its fields appended, so a range of its bits is found by skipping the fields below it. -/

/-- STATUS field by field. -/
theorem State.statusReg_fields (s : State) :
    s.statusReg.extractLsb' 0 1 = BitVec.ofBool s.busy ∧ s.statusReg.extractLsb' 1 1 = BitVec.ofBool s.deser.valid ∧
      s.statusReg.extractLsb' 2 1 = BitVec.ofBool s.deser.nrdy ∧
      s.statusReg.extractLsb' 3 1 = BitVec.ofBool s.conf.locked ∧
      s.statusReg.extractLsb' 4 1 = BitVec.ofBool s.err.cmdErr ∧ s.statusReg.extractLsb' 5 3 = 0#3 ∧
      s.statusReg.extractLsb' 8 4 = s.err.errCode.toBits ∧ s.statusReg.extractLsb' 12 2 = s.pwm.actDir.toBits ∧
      s.statusReg.extractLsb' 14 1 = BitVec.ofBool s.pwm.pendValid ∧ s.statusReg.extractLsb' 15 1 = 0#1 ∧
      s.statusReg.extractLsb' 16 7 = s.pwm.actDuty ∧ s.statusReg.extractLsb' 23 1 = 0#1 ∧
      s.statusReg.extractLsb' 24 2 = s.pwm.lastDir.toBits ∧ s.statusReg.extractLsb' 26 6 = 0#6 := by
  simp (disch := omega) only [State.statusReg, BitVec.extractLsb'_append_eq_of_le,
    BitVec.extractLsb'_append_eq_of_add_le, Nat.reduceSub, BitVec.extractLsb'_eq_self, and_self]

/-- STATUS.BUSY is 1 exactly in a state other than IDLE. -/
theorem State.busy_eq_decide (s : State) : s.busy = decide (s.deser.rdState ≠ .idle) := by
  cases h : s.deser.rdState <;> simp [State.busy, h]

/-- Settles O33: `busy` and the directions' encodings are those of R34. -/
theorem statusLayout : Obligations.StatusLayout := by
  refine ⟨fun s => ⟨rfl, ?_⟩, by decide⟩
  rw [← s.busy_eq_decide]
  exact s.statusReg_fields

/-- The registers beside STATUS, CMD and SAMPLE field by field: CFG_ADC, CFG_TIMEOUT, CFG_PWM, PEND and DESER. -/
theorem State.otherRegs_fields (s : State) :
    s.cfgAdcReg.extractLsb' 0 2 = s.conf.cfgExtra ∧ s.cfgAdcReg.extractLsb' 2 6 = 0#6 ∧
      s.cfgAdcReg.extractLsb' 8 8 = s.conf.cfgSckHalf ∧ s.cfgAdcReg.extractLsb' 16 16 = 0#16 ∧
      s.cfgTimeoutReg.extractLsb' 0 24 = s.conf.cfgTimeout ∧ s.cfgTimeoutReg.extractLsb' 24 8 = 0#8 ∧
      s.cfgPwmReg.extractLsb' 0 16 = s.conf.cfgSlice ∧ s.cfgPwmReg.extractLsb' 16 16 = 0#16 ∧
      s.pendReg.extractLsb' 0 7 = s.pwm.pendDuty ∧ s.pendReg.extractLsb' 7 2 = s.pwm.pendDir.toBits ∧
      s.pendReg.extractLsb' 9 22 = 0#22 ∧ s.pendReg.extractLsb' 31 1 = BitVec.ofBool s.pwm.pendValid ∧
      s.deserReg.extractLsb' 0 2 = s.deser.rdState.toBits ∧ s.deserReg.extractLsb' 2 5 = s.deser.pulseCnt ∧
      s.deserReg.extractLsb' 7 25 = 0#25 := by
  simp (disch := omega) only [State.cfgAdcReg, State.cfgTimeoutReg, State.cfgPwmReg, State.pendReg, State.deserReg,
    BitVec.extractLsb'_append_eq_of_le, BitVec.extractLsb'_append_eq_of_add_le, Nat.reduceSub,
    BitVec.extractLsb'_eq_self, and_self]

/-- Every register reads 0 after reset. -/
theorem readRegister_reset : ∀ off, State.reset.readRegister off = 0#32 := by decide

/-- Settles O34: no register's definition mentions one of the six fields the host cannot see. -/
theorem registerLayouts : Obligations.RegisterLayouts :=
  ⟨fun s => ⟨rfl, rfl, s.otherRegs_fields⟩, readRegister_reset, fun _ _ _ _ _ _ _ _ => rfl⟩

end Sys2Proof.Machine
end

section
namespace Sys2Proof

/-! ## Words by number (30_encoding.md R58 to R70)

`Machine.checkWord` reads a word as a number, the decoder by its bit fields; these lemmas translate. -/

/-- The number of an opcode in the map of R59. -/
def Opcode.number : Opcode → Nat
  | .nop => 0
  | .cfgExtra => 1
  | .cfgTimeout => 2
  | .cfgSck => 3
  | .cfgPwm => 4
  | .lock => 5
  | .read => 6
  | .apply => 7
  | .clear => 8

theorem Opcode.toNat_of_ofBits_some {b : BitVec 4} {op : Opcode} (h : Opcode.ofBits b = some op) :
    b.toNat = op.number := by
  revert h
  cases op <;> revert b <;> decide

theorem Opcode.toNat_of_ofBits_none : ∀ b : BitVec 4, Opcode.ofBits b = none → 9 ≤ b.toNat := by decide

theorem field_toNat (w : Word) (lo n : Nat) : (field w lo n).toNat = w.toNat / 2 ^ lo % 2 ^ n := by
  rw [field, BitVec.extractLsb'_toNat, Nat.shiftRight_eq_div_pow]

/-- The opcode field as the word's number has it. -/
theorem opcodeField_toNat (w : Word) : (field w 28 4).toNat = w.toNat / 2 ^ 28 := by
  have := w.isLt
  rw [field_toNat]
  omega

/-- The reserved bits of a word, as the number of R70's pseudocode. -/
theorem reserved_toNat (w : Word) (op : Opcode) :
    w.toNat % 2 ^ 28 &&& Machine.reservedMaskOf op.number = (w &&& op.reservedMask).toNat := by
  have hmask : Machine.reservedMaskOf op.number = op.reservedMask.toNat := by cases op <;> rfl
  have hlt : op.reservedMask.toNat < 2 ^ 28 := by cases op <;> decide
  rw [hmask, BitVec.toNat_and, ← Nat.mod_eq_of_lt (Nat.and_lt_two_pow w.toNat hlt), Nat.and_mod_two_pow,
    Nat.mod_eq_of_lt hlt]

/-- What a word decodes to, by its number: a reserved opcode, a command, or a command's opcode with a reserved bit. -/
theorem decode_cases (w : Word) :
    (9 ≤ w.toNat / 2 ^ 28 ∧ decode w = .error .reservedOpcode) ∨
      ∃ op : Opcode, w.toNat / 2 ^ 28 = op.number ∧
        ((w &&& op.reservedMask = 0#32 ∧ decode w = .ok (op.instr w)) ∨
          (w &&& op.reservedMask ≠ 0#32 ∧ decode w = .error (.reservedBits op))) := by
  unfold decode
  rw [← opcodeField_toNat]
  cases ho : Opcode.ofBits (field w 28 4) with
  | none => exact .inl ⟨Opcode.toNat_of_ofBits_none _ ho, rfl⟩
  | some op =>
    refine .inr ⟨op, Opcode.toNat_of_ofBits_some ho, ?_⟩
    by_cases hm : w &&& op.reservedMask = 0#32
    · exact .inl ⟨hm, if_pos hm⟩
    · exact .inr ⟨hm, if_neg hm⟩

/-- Only CLEAR's word decodes to CLEAR. -/
theorem eq_clear_of_decode {w : Word} (h : decode w = .ok .clear) : w = 0x80000000#32 := by
  obtain ⟨-, he⟩ | ⟨op, hop, ⟨hm, hi⟩ | ⟨-, he⟩⟩ := decode_cases w
  · simp [he] at h
  · obtain rfl : op = .clear := by
      rw [hi] at h
      cases op <;> simp [Opcode.instr] at h ⊢
    have hlow : w.toNat % 2 ^ 28 &&& 2 ^ 28 - 1 = 0 := (reserved_toNat w .clear).trans (congrArg BitVec.toNat hm)
    rw [Nat.and_two_pow_sub_one_eq_mod] at hlow
    rw [Opcode.number] at hop
    apply BitVec.eq_of_toNat_eq
    rw [BitVec.toNat_ofNat]
    omega
  · simp [he] at h

end Sys2Proof

namespace Sys2Proof.Machine

/-! ## The error record (10_state.md R32, 60_exceptions.md R130) -/

/-- The code of a word that is no command. -/
def rejectCode : DecodeError → ErrCode
  | .reservedOpcode => .reservedOpcode
  | .reservedBits _ => .reservedBits

/-- The check `exec` makes of a command: the code it is rejected with, if any. -/
def commandCheck (s : State) : Instr → Option ErrCode
  | .nop => none
  | .cfgExtra n => configCheck s (wfExtra n)
  | .cfgTimeout _ => configCheck s true
  | .cfgSck h => configCheck s (wfHalf h)
  | .cfgPwm p => configCheck s (wfSlice p)
  | .lock => lockCheck s
  | .read => readCheck s
  | .apply dir duty => match applyCheck s dir duty with | .error c => some c | .ok _ => none
  | .clear => none

/-- The check the command phase makes of a word. -/
def wordCheck (s : State) (w : Word) : Option ErrCode :=
  match decode w with
  | .ok i => commandCheck s i
  | .error e => some (rejectCode e)

theorem commandCheck_ne_none {s : State} {i : Instr} {c : ErrCode} (h : commandCheck s i = some c) : c ≠ .none := by
  cases i with
  | nop => cases h
  | clear => cases h
  | cfgExtra n => exact configCheck_error c h
  | cfgTimeout v => exact configCheck_error c h
  | cfgSck v => exact configCheck_error c h
  | cfgPwm p => exact configCheck_error c h
  | lock => exact lockCheck_error c h
  | read => exact readCheck_error c h
  | apply dir duty =>
    cases ha : applyCheck s dir duty with
    | ok d => simp [commandCheck, ha] at h
    | error e =>
      simp only [commandCheck, ha, Option.some.injEq] at h
      exact h ▸ applyCheck_error ha

theorem wordCheck_ne_none {s : State} {w : Word} {c : ErrCode} (h : wordCheck s w = some c) : c ≠ .none := by
  unfold wordCheck at h
  split at h
  · exact commandCheck_ne_none h
  · next e _ => cases h; cases e <;> simp [rejectCode]

/-- The record after a check's outcome. -/
def State.errAfter (s : State) : Option ErrCode → Err
  | none => s.err
  | some c => (s.recordError c).err

/-- A checked command that writes no error field itself leaves the record of its check. -/
theorem checked_err {code : Option ErrCode} {s u t : State} (h : checked code s u = .next t) (hu : u.err = s.err) :
    t.err = s.errAfter code := by
  cases code <;> cases h
  · exact hu
  · rfl

/-- Every command but CLEAR leaves the record of its check. -/
theorem exec_err {i : Instr} {s t : State} (hi : i ≠ .clear) (h : exec i s = .next t) :
    t.err = s.errAfter (commandCheck s i) := by
  cases i with
  | clear => exact absurd rfl hi
  | nop => cases h; rfl
  | cfgExtra n => exact checked_err h rfl
  | cfgTimeout v => exact checked_err h rfl
  | cfgSck v => exact checked_err h rfl
  | cfgPwm p => exact checked_err h rfl
  | lock => exact checked_err h rfl
  | read => exact checked_err h rfl
  | apply dir duty =>
    simp only [exec, execApply] at h
    cases ha : applyCheck s dir duty <;> simp only [ha] at h <;> cases h <;>
      simp [commandCheck, ha, State.errAfter, State.rejectApply_eq]

/-- A word that is no command leaves the record of its code. -/
theorem rejectWord_err (e : DecodeError) (s : State) : (rejectWord e s).err = (s.recordError (rejectCode e)).err := by
  cases e with
  | reservedOpcode => rfl
  | reservedBits op => by_cases ho : op = .apply <;> simp [rejectWord, rejectCode, ho, State.rejectApply_eq]

/-- Every word but CLEAR's leaves the record of its check. -/
theorem commandPhase_err {w : Word} {s t : State} (hw : w ≠ 0x80000000#32) (h : commandPhase w s = .next t) :
    t.err = s.errAfter (wordCheck s w) := by
  unfold commandPhase at h
  unfold wordCheck
  cases hd : decode w with
  | ok i =>
    rw [hd] at h
    exact exec_err (fun hi => hw (eq_clear_of_decode (hi ▸ hd))) h
  | error e =>
    rw [hd] at h
    cases h
    exact rejectWord_err e s

/-- ERR_CODE as the pseudocode of 30_encoding.md R70 returns it: 0 where the check accepts. -/
def codeNumber (code : Option ErrCode) : Nat := (code.getD .none).toBits.toNat

theorem codeNumber_pos {c : ErrCode} (h : c ≠ .none) : codeNumber (some c) ≠ 0 := by
  revert h
  cases c <;> decide

theorem field_zero_eq_zero_iff (w : Word) (n : Nat) : field w 0 n = 0#n ↔ w.toNat % 2 ^ n = 0 := by
  rw [← BitVec.toNat_inj, field_toNat]
  simp

/-- The check of a configuration command whose one illegal value is 0, by the number of its word. -/
theorem codeNumber_configCheck (s : State) (w : Word) {n : Nat} {legal : Bool}
    (h : legal = false ↔ field w 0 n = 0#n) :
    codeNumber (configCheck s legal) = if s.conf.locked then 4 else if w.toNat % 2 ^ n = 0 then 3 else 0 := by
  simp only [← field_zero_eq_zero_iff, ← h]
  cases hl : s.conf.locked <;> cases legal <;> simp [configCheck, hl, codeNumber, ErrCode.toBits]

theorem codeNumber_lockCheck (s : State) :
    codeNumber (lockCheck s) =
      if s.conf.locked then 4
      else if s.conf.cfgExtra = 0#2 ∨ s.conf.cfgSckHalf = 0#8 ∨ s.conf.cfgSlice = 0#16 then 7 else 0 := by
  unfold lockCheck
  split <;> [rfl; split <;> rfl]

theorem codeNumber_readCheck (s : State) :
    codeNumber (readCheck s) = if s.conf.locked = false then 5 else if s.deser.rdState ≠ .idle then 6 else 0 := by
  unfold readCheck
  split <;> [rfl; split <;> rfl]

/-- DIR = 0b11 is the one field value that names no direction. -/
theorem direction_ofBits_eq_none_iff (b : BitVec 2) : direction (DirField.ofBits b) = none ↔ b.toNat = 3 := by
  revert b; decide

/-- The check of APPLY by the numbers of its fields. -/
theorem codeNumber_applyCheck (s : State) (b : BitVec 2) (duty : BitVec 7) :
    codeNumber (commandCheck s (.apply (DirField.ofBits b) duty)) =
      if s.conf.locked = false then 5 else if b.toNat = 3 ∨ 100 < duty.toNat then 3 else 0 := by
  simp only [← direction_ofBits_eq_none_iff]
  cases hl : s.conf.locked
  · simp [commandCheck, applyCheck, hl, codeNumber, ErrCode.toBits]
  · cases hd : direction (DirField.ofBits b) <;> by_cases hD : duty.toNat ≤ 100 <;>
      simp [commandCheck, applyCheck, wfDuty, hl, hd, hD, codeNumber, ErrCode.toBits]

/-- R70's pseudocode on a command's word is the check of the command. -/
theorem checkWord_of_command {w : Word} {op : Opcode} (s : State) (hop : w.toNat / 2 ^ 28 = op.number)
    (hm : w &&& op.reservedMask = 0#32) : checkWord s w = codeNumber (commandCheck s (op.instr w)) := by
  have hres : w.toNat % 2 ^ 28 &&& reservedMaskOf op.number = 0 := by rw [reserved_toNat, hm]; rfl
  simp only [checkWord, hop, hres]
  cases op with
  | nop => rfl
  | clear => rfl
  | cfgExtra =>
    rw [Opcode.instr, commandCheck, codeNumber_configCheck s w (n := 2) (by simp [wfExtra])]
    simp [Opcode.number]
  | cfgTimeout =>
    rw [Opcode.instr, commandCheck, configCheck]
    cases hl : s.conf.locked <;> simp [Opcode.number, codeNumber, ErrCode.toBits]
  | cfgSck =>
    rw [Opcode.instr, commandCheck, codeNumber_configCheck s w (n := 8) (by simp [wfHalf])]
    simp [Opcode.number]
  | cfgPwm =>
    rw [Opcode.instr, commandCheck, codeNumber_configCheck s w (n := 16) (by simp [wfSlice])]
    simp [Opcode.number]
  | lock =>
    rw [Opcode.instr, commandCheck, codeNumber_lockCheck]
    simp [Opcode.number]
  | read =>
    rw [Opcode.instr, commandCheck, codeNumber_readCheck]
    simp [Opcode.number]
  | apply =>
    rw [Opcode.instr, codeNumber_applyCheck, field_toNat, field_toNat]
    simp [Opcode.number]

theorem checkWord_of_reservedOpcode {w : Word} (s : State) (hop : 9 ≤ w.toNat / 2 ^ 28) : checkWord s w = 1 :=
  if_pos hop

theorem checkWord_of_reservedBits {w : Word} {op : Opcode} (s : State) (hop : w.toNat / 2 ^ 28 = op.number)
    (hm : w &&& op.reservedMask ≠ 0#32) : checkWord s w = 2 := by
  have hres : w.toNat % 2 ^ 28 &&& reservedMaskOf op.number ≠ 0 := by
    rw [reserved_toNat]
    exact fun h0 => hm (BitVec.eq_of_toNat_eq h0)
  have hlt : ¬9 ≤ op.number := by cases op <;> decide
  simp only [checkWord, hop, hlt, if_false, if_pos hres]

/-- R70's pseudocode is the check the command phase makes. -/
theorem checkWord_eq (s : State) (w : Word) : checkWord s w = codeNumber (wordCheck s w) := by
  unfold wordCheck
  obtain ⟨hop, hd⟩ | ⟨op, hop, ⟨hm, hd⟩ | ⟨hm, hd⟩⟩ := decode_cases w <;> rw [hd]
  · exact checkWord_of_reservedOpcode s hop
  · exact checkWord_of_command s hop hm
  · exact checkWord_of_reservedBits s hop hm

/-- A word is accepted exactly where R70's pseudocode returns 0. -/
theorem wordCheck_eq_none_iff (s : State) (w : Word) : wordCheck s w = none ↔ checkWord s w = 0 := by
  rw [checkWord_eq]
  cases h : wordCheck s w with
  | none => simp [codeNumber, ErrCode.toBits]
  | some c => simpa using codeNumber_pos (wordCheck_ne_none h)

/-- What a word other than CLEAR's does to the record, by R70's pseudocode. -/
theorem commandPhase_err_cases {w : Word} {s t : State} (hw : w ≠ 0x80000000#32) (h : commandPhase w s = .next t) :
    (checkWord s w = 0 → t.err = s.err) ∧ (checkWord s w ≠ 0 → s.err.cmdErr = true → t.err = s.err) ∧
      (checkWord s w ≠ 0 → s.err.cmdErr = false →
        t.err.cmdErr = true ∧ t.err.errCode.toBits.toNat = checkWord s w) := by
  rw [commandPhase_err hw h, ne_eq, ← wordCheck_eq_none_iff, checkWord_eq]
  cases wordCheck s w with
  | none => simp [State.errAfter]
  | some c => cases he : s.err.cmdErr <;> simp [State.errAfter, State.recordError_err, he, codeNumber]

/-- CLEAR's word passes its check and empties the record. -/
theorem commandPhase_clear (s : State) : commandPhase 0x80000000#32 s = .next s.clearErr := rfl

theorem checkWord_clear (s : State) : checkWord s 0x80000000#32 = 0 := by
  rw [checkWord_eq]; rfl

/-- Settles O28. -/
theorem errorRecordIsSticky : Obligations.ErrorRecordIsSticky := by
  intro s t hstep
  have hinv : s.Inv → t.ErrOk := fun h => (invariantIsKeptByEveryStep s t h hstep).errOk
  obtain ⟨hr, rfl⟩ | ⟨⟨hr, -⟩, rfl⟩ := step_cases hstep
  · simp only [hr]
    exact ⟨fun _ => rfl, by simp, by simp, hinv⟩
  · refine ⟨by simp [hr], fun _ hnone => by simp [State.postCommand_none hnone], fun w _ hw => ?_, hinv⟩
    obtain ⟨u, hu⟩ := commandPhase_next w s
    rw [enginePhase_err, State.postCommand_some hw hu]
    by_cases hclear : w = 0x80000000#32
    · subst hclear
      rw [commandPhase_clear] at hu
      cases hu
      simp [checkWord_clear]
    · obtain ⟨haccept, hkept, hset⟩ := commandPhase_err_cases hclear hu
      exact ⟨fun h => absurd h hclear, fun h _ => haccept h, hkept, hset⟩

end Sys2Proof.Machine
end

section
namespace Sys2Proof

/-! ## Bytes of a host bridge (20_memory.md R46) -/

theorem field_getLsbD (w : Word) (lo n : Nat) {j : Nat} (hj : j < n) : (field w lo n).getLsbD j = w.getLsbD (lo + j) := by
  simp [field, hj]

/-- Byte `k` of a word holds its bits 8k+7 to 8k. -/
theorem wordToBytes_getLsbD (w : Word) {k j : Nat} (hk : k < 4) (hj : j < 8) :
    ((wordToBytes w)[k]?.getD 0).getLsbD j = w.getLsbD (8 * k + j) := by
  interval_cases k <;> exact field_getLsbD w _ 8 hj

/-- A byte shifted up to byte `m` shows there and nowhere else. -/
theorem shiftedByte_getLsbD (b : Byte) (m : Nat) {k j : Nat} (hk : k < 4) (hj : j < 8) :
    (b.setWidth 32 <<< (8 * m)).getLsbD (8 * k + j) = (decide (m = k) && b.getLsbD j) := by
  rw [BitVec.getLsbD_shiftLeft, BitVec.getLsbD_setWidth]
  obtain hlt | rfl | hgt := lt_trichotomy k m
  · simp [show 8 * k + j < 8 * m by omega, show m ≠ k by omega]
  · simp [show 8 * k + j < 32 by omega, show j < 32 by omega]
  · simp [BitVec.getLsbD_of_ge b (8 * k + j - 8 * m) (by omega), show m ≠ k by omega]

/-- Byte `k` of the word of four bytes is the `k`-th of them. -/
theorem wordOfBytes_getLsbD (b0 b1 b2 b3 : Byte) {k j : Nat} (hk : k < 4) (hj : j < 8) :
    (wordOfBytes b0 b1 b2 b3).getLsbD (8 * k + j) = ([b0, b1, b2, b3][k]?.getD 0).getLsbD j := by
  have hw : wordOfBytes b0 b1 b2 b3 =
      b0.setWidth 32 <<< (8 * 0) ||| b1.setWidth 32 <<< (8 * 1) ||| b2.setWidth 32 <<< (8 * 2) |||
        b3.setWidth 32 <<< (8 * 3) := by simp [wordOfBytes]
  simp only [hw, BitVec.getLsbD_or, shiftedByte_getLsbD _ _ hk hj]
  interval_cases k <;> simp

/-- The bytes of a word make that word again. -/
theorem wordOfBytes_wordToBytes (w : Word) :
    wordOfBytes (field w 0 8) (field w 8 8) (field w 16 8) (field w 24 8) = w := by
  apply BitVec.eq_of_getLsbD_eq
  intro i hi
  rw [← Nat.div_add_mod i 8, wordOfBytes_getLsbD _ _ _ _ (by omega) (by omega)]
  exact wordToBytes_getLsbD w (by omega) (by omega)

/-- Settles O3. -/
theorem bridgeBytesDecodeLikeTheWord : Obligations.BridgeBytesDecodeLikeTheWord := fun w rest =>
  ⟨by simp only [wordToBytes, List.cons_append, List.nil_append, decodeBytes, wordOfBytes_wordToBytes],
    fun _ _ => wordToBytes_getLsbD w⟩

/-! ## Decoding a command's word (30_encoding.md R59 to R67) -/

/-- A field put in below bit `lo` changes nothing from there on. -/
theorem field_or_above {n : Nat} (w : Word) (v : BitVec n) {lo : Nat} (h : n ≤ lo) (k : Nat) :
    field (w ||| v.setWidth 32) lo k = field w lo k := by
  apply BitVec.eq_of_getLsbD_eq
  intro i hi
  have hv : v.getLsbD (lo + i) = false := BitVec.getLsbD_of_ge v _ (by omega)
  simp [field, hi, hv]

/-- A field put in over zeros is read back. -/
theorem field_or_same {n : Nat} (hn : n ≤ 32) {w : Word} (v : BitVec n) (h : field w 0 n = 0#n) :
    field (w ||| v.setWidth 32) 0 n = v := by
  apply BitVec.eq_of_getLsbD_eq
  intro i hi
  have hw : w.getLsbD (0 + i) = false := by rw [← field_getLsbD w 0 n hi, h, BitVec.getLsbD_zero]
  rw [field_getLsbD _ _ _ hi, BitVec.getLsbD_or, hw, Bool.false_or, BitVec.getLsbD_setWidth, Nat.zero_add,
    decide_eq_true (by omega), Bool.true_and]

/-- Every command's word has the shape of its opcode. -/
theorem encodedShape (i : Instr) : Laws.EncodedShape.Statement i := by
  cases i with
  | nop => exact Laws.EncodedShape.nop
  | cfgExtra n => exact Laws.EncodedShape.cfgExtra n
  | cfgTimeout t => exact Laws.EncodedShape.cfgTimeout t
  | cfgSck h => exact Laws.EncodedShape.cfgSck h
  | cfgPwm p => exact Laws.EncodedShape.cfgPwm p
  | lock => exact Laws.EncodedShape.lock
  | read => exact Laws.EncodedShape.read
  | apply dir duty => exact Laws.EncodedShape.apply dir duty
  | clear => exact Laws.EncodedShape.clear

/-- The fields of a command's word are the command's. -/
theorem instr_encode (i : Instr) : i.opcode.instr (encode i) = i := by
  cases i with
  | nop | lock | read | clear => rfl
  | cfgExtra n => exact congrArg Instr.cfgExtra (field_or_same (by omega) n (by decide))
  | cfgTimeout t => exact congrArg Instr.cfgTimeout (field_or_same (by omega) t (by decide))
  | cfgSck h => exact congrArg Instr.cfgSck (field_or_same (by omega) h (by decide))
  | cfgPwm p => exact congrArg Instr.cfgPwm (field_or_same (by omega) p (by decide))
  | apply dir duty =>
    have hduty : field (encode (.apply dir duty)) 0 7 = duty := field_or_same (by omega) duty (by cases dir <;> decide)
    have hdir : field (encode (.apply dir duty)) 7 2 = dir.toBits :=
      (field_or_above _ duty (by omega) 2).trans (by cases dir <;> decide)
    simp only [Instr.opcode, Opcode.instr, hduty, hdir]
    cases dir <;> rfl

/-- A command's word decodes to it. -/
theorem decode_encode (i : Instr) : decode (encode i) = .ok i := by
  obtain ⟨hop, hmask⟩ := encodedShape i
  simp only [decode, hop, if_pos hmask, instr_encode]

end Sys2Proof

namespace Sys2Proof.Machine

/-! ## The host port (20_memory.md R40 to R44) -/

theorem busRdata_presentRead (s : State) (off : BitVec 5) : (s.presentRead off).busRdata = some (s.readRegister off) := rfl

theorem step_presentRead_eq_noAccess (s : State) (off : BitVec 5) : step (s.presentRead off) = step s.noAccess := by
  rw [step_presentRead, step_noAccess]

theorem step_presentWrite_eq_noAccess (s : State) {off : BitVec 5} (w : Word) (h : off ≠ 0x00#5) :
    step (s.presentWrite off w) = step s.noAccess := by
  rw [step_presentWrite_other s w h, step_noAccess]

/-- Every register's offset is a multiple of four, so a misaligned read returns 0. -/
theorem readRegister_misaligned (s : State) {off : BitVec 5} (h : off.extractLsb' 0 2 ≠ 0#2) :
    s.readRegister off = 0#32 := by
  unfold State.readRegister
  split
  case h_8 => rfl
  all_goals exact absurd rfl h

/-- Settles O35. -/
theorem readsHaveNoSideEffect : Obligations.ReadsHaveNoSideEffect := fun s off =>
  ⟨busRdata_presentRead s off, step_presentRead_eq_noAccess s off⟩

/-- Settles O36: CMD's offset is aligned, so a misaligned write is one of those the block ignores. -/
theorem misalignedAccessesDoNothing : Obligations.MisalignedAccessesDoNothing := fun s off w h =>
  ⟨step_presentWrite_eq_noAccess s w fun h0 => h (by rw [h0]; rfl),
    by rw [busRdata_presentRead, readRegister_misaligned s h], step_presentRead_eq_noAccess s off⟩

/-- Settles O37. -/
theorem onlyCmdWritesIssueCommands : Obligations.OnlyCmdWritesIssueCommands := by
  rintro s off w -
  refine ⟨?_, step_presentWrite_eq_noAccess s w⟩
  rintro rfl
  obtain ⟨t, ht⟩ := commandPhase_next w (s.presentWrite 0x00#5 w)
  have hstep := step_admitted (s := s.presentWrite 0x00#5 w) ⟨rfl, rfl⟩
  rw [State.postCommand_some rfl ht] at hstep
  exact ⟨t, _, ht, hstep, rfl, rfl, rfl, fun hidle => enginePhase_deser_idle t hidle⟩

/-! ## The host's moves (20_memory.md R40, R56) -/

theorem step_bothStrobes {s : State} (hr : s.input.rst = false) (hb : s.input.bothStrobes = true) :
    step s = .refused .busWriteAndRead := by
  simp [step, cycleStep, hr, hb]

theorem hostWrites_encode (s : State) (i : Instr) : s.hostWrites (encode i) = s.hostSends i := by
  simp only [State.hostWrites, decode_encode]

theorem hostWrites_of_decode_error (s : State) {w : Word} {e : DecodeError} (h : decode w = .error e) :
    s.hostWrites w = false := by
  simp only [State.hostWrites, h]

theorem hostReads_iff (off : BitVec 5) :
    hostReads off = true ↔ off ∈ [0x04#5, 0x08#5, 0x0C#5, 0x10#5, 0x14#5, 0x18#5] := by
  simp only [hostReads, decide_eq_true_eq]

/-- The host sends configuration words exactly before the lock. -/
theorem hostSends_config (s : State) {i : Instr}
    (h : i.opcode ∈ [Opcode.cfgExtra, .cfgTimeout, .cfgSck, .cfgPwm]) : s.hostSends i = !s.conf.locked := by
  cases i with
  | cfgExtra _ | cfgTimeout _ | cfgSck _ | cfgPwm _ => rfl
  | nop | lock | read | apply _ _ | clear => simp [Instr.opcode] at h

/-- Before the lock the host sends neither READ nor APPLY. -/
theorem hostSends_engine_unlocked {s : State} {i : Instr} (h : i.opcode ∈ [Opcode.read, .apply])
    (hl : s.conf.locked = false) : s.hostSends i = false := by
  cases i with
  | read | apply _ _ => simp only [State.hostSends, hl, Bool.false_and]
  | nop | cfgExtra _ | cfgTimeout _ | cfgSck _ | cfgPwm _ | lock | clear => simp [Instr.opcode] at h

theorem hostSends_read_iff (s : State) :
    s.hostSends .read = true ↔ s.conf.locked = true ∧ s.deser.rdState = .idle := by
  simp [State.hostSends, State.busy]

theorem hostSends_apply_iff (s : State) (dir : DirField) (duty : BitVec 7) :
    s.hostSends (.apply dir duty) = true ↔ s.conf.locked = true ∧ dir ≠ .reserved ∧ duty.toNat ≤ 100 := by
  simp [State.hostSends, Instr.wellFormed, wfDir, wfDuty]

/-- A cycle of the closed system that is a move and in which the block answers is the block's own cycle. -/
theorem hostStep_runs {s t : State} (hm : s.hostMove = true) (h : step s = .next t) :
    ∃ u, step s = .next u ∧ hostStep s = .next u :=
  ⟨t, h, (hostStep_of_move hm).trans h⟩

/-- A command the host sends runs as the block's own step. -/
theorem hostStep_command {s : State} {i : Instr} (h : s.hostSends i = true) :
    ∃ t, step (s.presentWord (encode i)) = .next t ∧ hostStep (s.presentWord (encode i)) = .next t := by
  obtain ⟨u, hu⟩ := commandPhase_next (encode i) s
  exact hostStep_runs (by rw [hostMove_presentWord, hostWrites_encode, h]) (step_presentWord hu)

/-- A command the host does not send is no move. -/
theorem hostStep_command_refused {s : State} {i : Instr} (h : s.hostSends i = false) :
    hostStep (s.presentWord (encode i)) = .refused .hostMoveOutsideTable :=
  hostStep_of_not_move (by rw [hostMove_presentWord, hostWrites_encode, h])

/-- Every run of the closed system is a run of the block. -/
theorem after_of_hostAfter {s t : State} {k : Nat} (h : s.hostAfter k = some t) : s.after k = some t := by
  induction k generalizing s with
  | zero => exact h
  | succ k ih =>
    unfold State.hostAfter at h
    split at h
    · rw [after_succ (hostStep_next ‹_›).2, ih h]
    · cases h

/-- Settles O10. -/
theorem bothStrobesAreRefused : Obligations.BothStrobesAreRefused := by
  intro s
  have both (hw : s.input.busWr = true) (hr : s.input.busRd = true) : s.input.bothStrobes = true := by
    simp only [Input.bothStrobes, hw, hr, Bool.and_self]
  refine ⟨fun hr hw hrd => step_bothStrobes hr (both hw hrd), fun i hi => hostStep_command ?sends,
    fun off ho => hostStep_runs ((hostReads_iff off).2 ho) (step_presentRead s off),
    hostStep_runs (hostMove_noAccess s) (step_noAccess s),
    fun hr hb => hostStep_runs (hostMove_of_rst hr hb) (step_reset hr),
    fun hw hrd => hostStep_of_not_move (hostMove_of_bothStrobes (both hw hrd)),
    fun off w ho => hostStep_of_not_move (hostMove_presentWrite_other s w ho),
    fun w e he => hostStep_of_not_move (hostWrites_of_decode_error s he),
    fun i hi => hostStep_command_refused ?refuses,
    fun off ho => hostStep_of_not_move (Bool.eq_false_of_not_eq_true (mt (hostReads_iff off).1 ho)),
    fun k t => after_of_hostAfter⟩
  case sends =>
    obtain ⟨hop, hl⟩ | rfl | rfl | ⟨rfl, hread⟩ | ⟨dir, duty, rfl, hlegal⟩ := hi
    · rw [hostSends_config s hop, hl]; rfl
    · rfl
    · rfl
    · exact (hostSends_read_iff s).2 hread
    · exact (hostSends_apply_iff s dir duty).2 hlegal
  case refuses =>
    obtain rfl | ⟨hop, hl⟩ | ⟨hop, hl⟩ | ⟨rfl, hbusy⟩ | ⟨dir, duty, rfl, hillegal⟩ := hi
    · rfl
    · rw [hostSends_config s hop, hl]; rfl
    · exact hostSends_engine_unlocked hop hl
    · exact Bool.eq_false_of_not_eq_true fun h => hbusy ((hostSends_read_iff s).1 h).2
    · refine Bool.eq_false_of_not_eq_true fun h => ?_
      obtain ⟨-, hdir, hduty⟩ := (hostSends_apply_iff s dir duty).1 h
      exact hillegal.elim hdir (by omega)

end Sys2Proof.Machine
end

section
namespace Sys2Proof

/-! ## Each word has at most one meaning (30_encoding.md R59 to R68)

A command's word is its opcode's number over its operand, the bits below the reserved ones. -/

/-- The width of an opcode's operand: the bits of the operand area that RESERVED_MASK leaves free (R59). -/
def Opcode.operandWidth : Opcode → Nat
  | .nop | .lock | .read | .clear => 0
  | .cfgExtra => 2
  | .cfgTimeout => 24
  | .cfgSck => 8
  | .cfgPwm => 16
  | .apply => 9

/-- The reserved bits are those of the operand area from the operand up. -/
theorem reservedMaskOf_number (op : Opcode) : Machine.reservedMaskOf op.number = 2 ^ 28 - 2 ^ op.operandWidth := by
  cases op <;> rfl

theorem Opcode.operandWidth_le (op : Opcode) : op.operandWidth ≤ 28 := by cases op <;> decide

/-- A number below 2^m without a bit from k up is below 2^k. -/
theorem lt_two_pow_of_and_eq_zero {x k m : Nat} (hk : k ≤ m) (hx : x < 2 ^ m) (h : x &&& (2 ^ m - 2 ^ k) = 0) :
    x < 2 ^ k := by
  have hmask : (2 ^ m - 2 ^ k) / 2 ^ k = 2 ^ (m - k) - 1 := by
    rw [← Nat.sub_add_cancel hk, Nat.pow_add, ← Nat.sub_one_mul, Nat.mul_div_cancel _ (Nat.two_pow_pos k),
      Nat.add_sub_cancel]
  have hhigh : x / 2 ^ k < 2 ^ (m - k) := by
    rw [Nat.div_lt_iff_lt_mul (Nat.two_pow_pos k), ← Nat.pow_add, Nat.sub_add_cancel hk]
    exact hx
  have hzero : x / 2 ^ k = 0 := by
    rw [← Nat.mod_eq_of_lt hhigh, ← Nat.and_two_pow_sub_one_eq_mod, ← hmask, ← Nat.and_div_two_pow, h, Nat.zero_div]
  exact (Nat.div_eq_zero_iff_lt (Nat.two_pow_pos k)).1 hzero

/-- A word of an opcode without a reserved bit is the opcode's number over the operand. -/
theorem toNat_eq_of_command {w : Word} {op : Opcode} (hop : w.toNat / 2 ^ 28 = op.number)
    (hm : w &&& op.reservedMask = 0#32) : w.toNat = op.number * 2 ^ 28 + w.toNat % 2 ^ op.operandWidth := by
  have hlow : w.toNat % 2 ^ 28 &&& (2 ^ 28 - 2 ^ op.operandWidth) = 0 := by
    rw [← reservedMaskOf_number, reserved_toNat, hm]
    rfl
  have hlt : w.toNat % 2 ^ 28 < 2 ^ op.operandWidth :=
    lt_two_pow_of_and_eq_zero op.operandWidth_le (Nat.mod_lt _ (Nat.two_pow_pos 28)) hlow
  rw [← Nat.mod_mod_of_dvd w.toNat (Nat.pow_dvd_pow 2 op.operandWidth_le), Nat.mod_eq_of_lt hlt, ← hop,
    Nat.div_add_mod']

/-- A field put in below a word's lowest 1 adds its number. -/
theorem toNat_or_field {n : Nat} (hn : n ≤ 32) {w : Word} (v : BitVec n) (hw : 2 ^ n ∣ w.toNat) :
    (w ||| v.setWidth 32).toNat = w.toNat + v.toNat := by
  obtain ⟨a, ha⟩ := hw
  rw [BitVec.toNat_or, BitVec.toNat_setWidth_of_le hn, ha, Nat.two_pow_add_eq_or_of_lt v.isLt]

/-- The DIR field's bits survive decoding, the reserved value too. -/
theorem DirField.toBits_ofBits (b : BitVec 2) : (DirField.ofBits b).toBits = b := by
  revert b; decide

/-- APPLY's opcode and DIR field as a number. -/
theorem applyDir_toNat (b : BitVec 2) :
    (0x70000000#32 ||| b.setWidth 32 <<< 7).toNat = 7 * 2 ^ 28 + b.toNat * 2 ^ 7 := by
  revert b; decide

/-- The word of the command an opcode reads from `w`: the opcode's number over the operand of `w`. -/
theorem encode_instr_toNat (op : Opcode) (w : Word) :
    (encode (op.instr w)).toNat = op.number * 2 ^ 28 + w.toNat % 2 ^ op.operandWidth := by
  cases op with
  | nop | lock | read | clear => simp [Opcode.instr, encode, Opcode.number, Opcode.operandWidth, Nat.mod_one]
  | cfgExtra | cfgTimeout | cfgSck | cfgPwm =>
    rw [Opcode.instr, encode, toNat_or_field (by decide) _ (by decide), field_toNat]
    simp [Opcode.number, Opcode.operandWidth]
  | apply =>
    have hdvd : 2 ^ 7 ∣ (0x70000000#32 ||| (field w 7 2).setWidth 32 <<< 7).toNat := by
      rw [applyDir_toNat]
      omega
    rw [Opcode.instr, encode, DirField.toBits_ofBits, toNat_or_field (by decide) _ hdvd, applyDir_toNat, field_toNat,
      field_toNat, Opcode.number, Opcode.operandWidth]
    omega

/-- A word that decodes is the word of its command. -/
theorem encode_of_decode {w : Word} {i : Instr} (h : decode w = .ok i) : encode i = w := by
  obtain ⟨-, hd⟩ | ⟨op, hop, ⟨hm, hd⟩ | ⟨-, hd⟩⟩ := decode_cases w <;> rw [hd] at h <;> cases h
  exact BitVec.eq_of_toNat_eq ((encode_instr_toNat op w).trans (toNat_eq_of_command hop hm).symm)

/-- A word decodes to a command exactly where it is the command's word. -/
theorem decode_eq_ok_iff (w : Word) (i : Instr) : decode w = .ok i ↔ w = encode i :=
  ⟨fun h => (encode_of_decode h).symm, fun h => h ▸ decode_encode i⟩

theorem Opcode.instr_opcode (op : Opcode) (w : Word) : (op.instr w).opcode = op := by cases op <;> rfl

theorem Opcode.number_injective {a b : Opcode} (h : a.number = b.number) : a = b := by
  revert h
  cases a <;> cases b <;> decide

theorem decode_of_reservedOpcode {w : Word} (h : 9 ≤ w.toNat / 2 ^ 28) : decode w = .error .reservedOpcode := by
  obtain ⟨-, hd⟩ | ⟨op, hop, -⟩ := decode_cases w
  · exact hd
  · have hlt : op.number < 9 := by cases op <;> decide
    omega

/-- A word with NOP's opcode that is not NOP's word has a reserved bit, since all its operand bits are reserved. -/
theorem decode_of_nopOpcode {w : Word} (hop : w.toNat / 2 ^ 28 = 0) (hw : w ≠ 0#32) :
    decode w = .error (.reservedBits .nop) := by
  obtain ⟨h9, -⟩ | ⟨op, hnum, hd⟩ := decode_cases w
  · omega
  · obtain rfl : op = .nop := Opcode.number_injective (hnum.symm.trans hop)
    obtain ⟨-, hd⟩ | ⟨-, hd⟩ := hd
    · exact absurd ((decode_eq_ok_iff w .nop).1 hd) hw
    · exact hd

/-- The raw opcode field is 7 exactly where the opcode is APPLY. -/
theorem opcodeField_eq_seven_iff {w : Word} {op : Opcode} (h : w.toNat / 2 ^ 28 = op.number) :
    w.extractLsb' 28 4 = 0x7#4 ↔ op = .apply := by
  have hfield : (w.extractLsb' 28 4).toNat = op.number := (opcodeField_toNat w).trans h
  rw [← BitVec.toNat_inj, hfield]
  cases op <;> decide

/-- Settles O2. -/
theorem encodeOfDecodeIsIdentity : Obligations.EncodeOfDecodeIsIdentity := fun _ _ => encode_of_decode

/-- Settles O5: the four words are those `encode` gives. -/
theorem fieldlessWordsAreExact : Obligations.FieldlessWordsAreExact := fun w =>
  ⟨decode_eq_ok_iff w .nop, decode_eq_ok_iff w .lock, decode_eq_ok_iff w .read, decode_eq_ok_iff w .clear⟩

end Sys2Proof

namespace Sys2Proof.Machine

/-! ## Rejected and accepted words (30_encoding.md R70, R71) -/

theorem commandPhase_of_decode_ok {w : Word} {i : Instr} (s : State) (h : decode w = .ok i) :
    commandPhase w s = exec i s := by
  simp only [commandPhase, h]

theorem commandPhase_of_decode_error {w : Word} {e : DecodeError} (s : State) (h : decode w = .error e) :
    commandPhase w s = .next (rejectWord e s) := by
  simp only [commandPhase, h]

/-- Settles O6. -/
theorem reservedWordsAreRejected : Obligations.ReservedWordsAreRejected := by
  intro w s
  refine ⟨fun h => commandPhase_of_decode_error s (decode_of_reservedOpcode (opcodeField_toNat w ▸ h)),
    (decode_eq_ok_iff w .nop).1, fun h hw => commandPhase_of_decode_error s (decode_of_nopOpcode ?_ hw)⟩
  rw [← opcodeField_toNat, field, h]
  rfl

/-- A command that fails its check is rejected with the check's code, and a rejected APPLY also stops the drive. -/
theorem exec_of_commandCheck_some {s : State} {i : Instr} {c : ErrCode} (h : commandCheck s i = some c) :
    exec i s = .next (if i.opcode = .apply then s.rejectApply c else s.recordError c) := by
  cases i with
  | nop | clear => cases h
  | cfgExtra _ | cfgTimeout _ | cfgSck _ | cfgPwm _ | lock | read =>
    exact congrArg (checked · s _) h
  | apply dir duty =>
    cases ha : applyCheck s dir duty with
    | ok d => simp [commandCheck, ha] at h
    | error e =>
      simp only [commandCheck, ha, Option.some.injEq] at h
      simp only [exec, execApply, ha, h, Instr.opcode, if_true]

/-- A word that fails its check is rejected with the check's code. -/
theorem commandPhase_of_wordCheck_some {s : State} {w : Word} {c : ErrCode} (h : wordCheck s w = some c) :
    commandPhase w s = .next (if w.extractLsb' 28 4 = 0x7#4 then s.rejectApply c else s.recordError c) := by
  unfold wordCheck at h
  obtain ⟨h9, hd⟩ | ⟨op, hop, ⟨-, hd⟩ | ⟨-, hd⟩⟩ := decode_cases w <;> simp only [hd] at h
  · have hne : w.extractLsb' 28 4 ≠ 0x7#4 := fun h7 => by
      rw [← opcodeField_toNat, field, h7] at h9
      exact absurd h9 (by decide)
    cases h
    rw [commandPhase_of_decode_error s hd, if_neg hne]
    rfl
  · rw [commandPhase_of_decode_ok s hd, exec_of_commandCheck_some h, Opcode.instr_opcode]
    simp only [opcodeField_eq_seven_iff hop]
  · cases h
    rw [commandPhase_of_decode_error s hd]
    simp only [opcodeField_eq_seven_iff hop, rejectWord, rejectCode]

/-- A word that passes its check is a command's, and the command passes. -/
theorem decode_of_wordCheck_none {s : State} {w : Word} (h : wordCheck s w = none) :
    ∃ i, decode w = .ok i ∧ commandCheck s i = none := by
  unfold wordCheck at h
  cases hd : decode w with
  | ok i => exact ⟨i, rfl, by simpa only [hd] using h⟩
  | error e => simp [hd] at h

/-- Settles O7: `checkWord` is the number of the check the command phase makes. -/
theorem checkRunsInSpecOrder : Obligations.CheckRunsInSpecOrder := by
  intro s w
  constructor
  · intro hw
    cases hc : wordCheck s w with
    | none => exact absurd ((wordCheck_eq_none_iff s w).1 hc) hw
    | some c => exact ⟨c, by rw [checkWord_eq, hc]; rfl, commandPhase_of_wordCheck_some hc⟩
  · intro hw
    obtain ⟨i, hd, hc⟩ := decode_of_wordCheck_none ((wordCheck_eq_none_iff s w).2 hw)
    obtain ⟨t, ht⟩ := exec_next i s
    refine ⟨i, t, hd, ht, (commandPhase_of_decode_ok s hd).trans ht, fun hi => ?_⟩
    rw [exec_err hi ht, hc]
    rfl

end Sys2Proof.Machine
end

section
namespace Sys2Proof.Machine

/-! ## What a checked command leaves (60_exceptions.md R130, R131) -/

/-- A checked command ends in the state its check rejects or accepts it to. -/
theorem checked_cases {code : Option ErrCode} {s u t : State} (h : checked code s u = .next t) :
    (∃ c, t = s.recordError c) ∨ t = u := by
  cases code <;> cases h
  · exact .inr rfl
  · exact .inl ⟨_, rfl⟩

theorem configCheck_of_locked {s : State} (hl : s.conf.locked = true) (legal : Bool) :
    configCheck s legal = some .configLocked := by
  simp [configCheck, hl]

theorem configCheck_of_unlocked {s : State} (hl : s.conf.locked = false) (legal : Bool) :
    configCheck s legal = if legal then none else some .illegalValue := by
  simp [configCheck, hl]

theorem readCheck_of_idle {s : State} (hl : s.conf.locked = true) (hi : s.deser.rdState = .idle) :
    readCheck s = none := by
  simp [readCheck, hl, hi]

theorem readCheck_of_unlocked {s : State} (hl : s.conf.locked = false) : readCheck s = some .notLocked := by
  simp [readCheck, hl]

theorem readCheck_of_busy {s : State} (hl : s.conf.locked = true) (hb : s.deser.rdState ≠ .idle) :
    readCheck s = some .readBusy := by
  simp [readCheck, hl, hb]

/-- A command other than APPLY whose word has a nonzero field under its reserved mask is rejected with code 2. -/
theorem commandPhase_reservedField {w : Word} {b : BitVec 4} {op : Opcode} (s : State) (lo n : Nat)
    (hop : Opcode.ofBits b = some op) (hap : op ≠ .apply)
    (hmask : ∀ i, i < n → op.reservedMask.getLsbD (lo + i) = true) (hb : w.extractLsb' 28 4 = b)
    (hf : w.extractLsb' lo n ≠ 0#n) : commandPhase w s = .next (s.recordError .reservedBits) := by
  rw [commandPhase_reservedBits s (hb ▸ hop) (masked_of_field lo n hf hmask), rejectWord, if_neg hap]

/-! ## The deserializer's configuration commands (40_adc_deserializer.md R76 to R78) -/

/-- Settles O12: a read in progress means a locked block, whose configuration no command changes. -/
theorem cfgExtraRule : Obligations.CfgExtraRule := by
  intro s n
  refine ⟨decode_encode (.cfgExtra n), fun hl hn => ?_, fun hl => ?_, fun hl hn => ?_, fun w => ?_,
    fun t hinv hbusy h => (exec_effect h).conf_of_locked (hinv.busyLocked hbusy), ⟨_, rfl, rfl⟩⟩
  · simp [exec, execCfgExtra, configCheck_of_unlocked hl, wfExtra, hn, checked, State.setCfgExtra]
  · rw [exec, execCfgExtra, configCheck_of_locked hl, checked]
  · simp [exec, execCfgExtra, configCheck_of_unlocked hl, wfExtra, hn, checked]
  · exact commandPhase_reservedField s 2 26 rfl (by decide) (by decide)

/-- Settles O13. -/
theorem cfgTimeoutRule : Obligations.CfgTimeoutRule := by
  intro s v
  refine ⟨decode_encode (.cfgTimeout v), fun hl => ?_, fun hl => ?_, fun w => ?_, ⟨_, rfl, rfl⟩⟩
  · simp [exec, execCfgTimeout, configCheck_of_unlocked hl, checked, State.setCfgTimeout]
  · rw [exec, execCfgTimeout, configCheck_of_locked hl, checked]
  · exact commandPhase_reservedField s 24 4 rfl (by decide) (by decide)

/-- Settles O14. -/
theorem cfgSckRule : Obligations.CfgSckRule := by
  intro s h
  refine ⟨decode_encode (.cfgSck h), fun hl hh => ?_, fun hl => ?_, fun hl hh => ?_, fun w => ?_, ⟨_, rfl, rfl⟩⟩
  · simp [exec, execCfgSck, configCheck_of_unlocked hl, wfHalf, hh, checked, State.setCfgSckHalf]
  · rw [exec, execCfgSck, configCheck_of_locked hl, checked]
  · simp [exec, execCfgSck, configCheck_of_unlocked hl, wfHalf, hh, checked]
  · exact commandPhase_reservedField s 8 20 rfl (by decide) (by decide)

/-! ## READ (40_adc_deserializer.md R79) -/

/-- An accepted READ. -/
theorem exec_read_accepted {s : State} (hl : s.conf.locked = true) (hi : s.deser.rdState = .idle) :
    exec .read s = .next (s.setDeser s.deser.startRead) := by
  rw [exec, execRead, readCheck_of_idle hl hi, checked]

/-- READ's word is a command whose phase is READ's. -/
theorem commandPhase_read (s : State) : commandPhase 0x60000000#32 s = exec .read s :=
  commandPhase_of_decode_ok s (decode_encode .read)

/-- Settles O17: while a read is in progress the engine phase takes the deserializer from before the command. -/
theorem readRule : Obligations.ReadRule := by
  intro s
  refine ⟨decode_encode .read, fun hl hi => ⟨exec_read_accepted hl hi, ?_⟩, fun hl => ?_, fun hl hb => ?_,
    fun w hb => ?_, fun w => commandPhase_reservedField s 0 28 rfl (by decide) (by decide)⟩
  · refine ⟨_, step_presentWord ((commandPhase_read s).trans (exec_read_accepted hl hi)), ?_⟩
    rw [State.busy, enginePhase_deser_idle _ hi]
    exact ⟨rfl, rfl, rfl⟩
  · rw [exec, execRead, readCheck_of_unlocked hl, checked]
  · rw [exec, execRead, readCheck_of_busy hl hb, checked]
  · obtain ⟨u, hu⟩ := commandPhase_next w s
    refine ⟨_, _, step_presentWord hu, step_noAccess s, ?_⟩
    rw [enginePhase_deser_busy u hb, enginePhase_deser_busy s hb]

/-! ## Frames of the configuration commands and of READ -/

/-- A register reads the same in two states that agree on the fields it shows; STATUS is left out. -/
theorem readRegister_congr {s t : State} {off : BitVec 5} (hstatus : off ≠ 0x04#5)
    (hsample : t.deser.sample = s.deser.sample)
    (hadc : off = 0x0C#5 → t.conf.cfgExtra = s.conf.cfgExtra ∧ t.conf.cfgSckHalf = s.conf.cfgSckHalf)
    (htimeout : off = 0x10#5 → t.conf.cfgTimeout = s.conf.cfgTimeout)
    (hslice : off = 0x14#5 → t.conf.cfgSlice = s.conf.cfgSlice) (hpend : off = 0x18#5 → t.pwm = s.pwm)
    (hdeser : off = 0x1C#5 → t.deser = s.deser) : t.readRegister off = s.readRegister off := by
  unfold State.readRegister
  split
  · exact absurd rfl hstatus
  · exact hsample
  · simp only [State.cfgAdcReg, hadc rfl]
  · rw [State.cfgTimeoutReg, htimeout rfl, State.cfgTimeoutReg]
  · rw [State.cfgPwmReg, hslice rfl, State.cfgPwmReg]
  · rw [State.pendReg, hpend rfl, State.pendReg]
  · rw [State.deserReg, hdeser rfl, State.deserReg]
  · rfl

/-- A recorded error shows in STATUS alone. -/
theorem readRegister_recordError {s : State} {off : BitVec 5} (c : ErrCode) (hstatus : off ≠ 0x04#5) :
    (s.recordError c).readRegister off = s.readRegister off :=
  readRegister_congr hstatus (by simp) (by simp) (by simp) (by simp) (by simp) (by simp)

/-- A configuration command records an error, or writes its own field of the configuration. -/
theorem exec_config_cases {i : Instr} {s t : State} (hi : i.opcode ∈ [Opcode.cfgExtra, .cfgTimeout, .cfgSck, .cfgPwm])
    (h : exec i s = .next t) :
    (∃ c, t = s.recordError c) ∨
      ((∃ c, t = { s with conf := c }) ∧ t.conf.locked = s.conf.locked ∧
        (i.opcode ≠ .cfgExtra → t.conf.cfgExtra = s.conf.cfgExtra) ∧
        (i.opcode ≠ .cfgTimeout → t.conf.cfgTimeout = s.conf.cfgTimeout) ∧
        (i.opcode ≠ .cfgSck → t.conf.cfgSckHalf = s.conf.cfgSckHalf) ∧
        (i.opcode ≠ .cfgPwm → t.conf.cfgSlice = s.conf.cfgSlice)) := by
  cases i with
  | nop | lock | read | apply _ _ | clear => simp [Instr.opcode] at hi
  | cfgExtra _ | cfgTimeout _ | cfgSck _ | cfgPwm _ =>
    refine (checked_cases h).imp_right ?_
    rintro rfl
    exact ⟨⟨_, rfl⟩, rfl, by simp [Instr.opcode]⟩

/-- Settles O29. -/
theorem configCommandFrame : Obligations.ConfigCommandFrame := by
  intro s t i hi h
  obtain ⟨c, rfl⟩ | ⟨⟨c, rfl⟩, hl, hx, ht, hh, hs⟩ := exec_config_cases hi h
  · simp only [State.recordError_conf, State.recordError_deser, State.recordError_pwm, State.recordError_inputs,
      State.recordError_cycle, or_true, implies_true, true_and]
    exact fun off hstatus _ _ _ => readRegister_recordError c hstatus
  · exact ⟨rfl, rfl, rfl, rfl, hl, .inl rfl, hx, ht, hh, hs, fun off hstatus hadc htimeout hslice =>
      readRegister_congr hstatus rfl (fun ho => ⟨hx (hadc ho).1, hh (hadc ho).2⟩) (fun ho => ht (htimeout ho))
        (fun ho => hs (hslice ho)) (fun _ => rfl) fun _ => rfl⟩

/-- Settles O30. -/
theorem readFrame : Obligations.ReadFrame := by
  intro s t h
  obtain ⟨c, rfl⟩ | rfl := checked_cases h
  · simp only [State.recordError_conf, State.recordError_deser, State.recordError_pwm, State.recordError_inputs,
      State.recordError_cycle, or_true, true_and]
    exact fun off hstatus _ => readRegister_recordError c hstatus
  · exact ⟨rfl, rfl, rfl, rfl, rfl, .inl rfl, fun off hstatus hdeser =>
      readRegister_congr hstatus rfl (fun _ => ⟨rfl, rfl⟩) (fun _ => rfl) (fun _ => rfl) (fun _ => rfl)
        fun ho => absurd ho hdeser⟩

end Sys2Proof.Machine
end

section
namespace Sys2Proof.Machine

/-! ## One cycle of the deserializer (40_adc_deserializer.md R82 to R88, R94)

While a read is in progress the deserializer advances from its own fields, the configuration and DOUT, whatever the
bus does. -/

/-- The step of a cycle without reset while a read is in progress. -/
theorem step_deser_busy {s t : State} (hb : s.deser.rdState ≠ .idle) (hr : s.input.rst = false)
    (h : step s = .next t) : t.deser = s.deser.advance s.conf s.dout := by
  obtain ⟨hr', -⟩ | ⟨-, rfl⟩ := step_cases h
  · simp [hr] at hr'
  · exact enginePhase_deser_busy _ hb

/-- An admitted cycle while a read is in progress answers, with the deserializer advanced. -/
theorem step_busy {s : State} (hb : s.deser.rdState ≠ .idle) (ha : s.input.admitted) :
    ∃ t, step s = .next t ∧ t.deser = s.deser.advance s.conf s.dout :=
  ⟨_, step_admitted ha, step_deser_busy hb ha.1 (step_admitted ha)⟩

/-- A read in progress ends by completion from LOW or by timeout from WAIT. -/
theorem Deser.advance_ends {c : Conf} {d : Deser} {b : Bool} (hb : d.rdState ≠ .idle)
    (h : (d.advance c b).rdState = .idle) :
    (d.rdState = .low ∧ (d.advance c b).valid = true) ∨ (d.rdState = .wait ∧ (d.advance c b).nrdy = true) := by
  cases hr : d.rdState with
  | idle => exact absurd hr hb
  | wait =>
    rw [Deser.advance_wait b hr] at h ⊢
    split at h
    · cases h
    · split at h
      · exact .inr ⟨rfl, by simp [*]⟩
      · simp [hr] at h
  | high =>
    by_cases hp : d.halfCnt.toNat + 1 < c.cfgSckHalf.toNat
    · simp [Deser.advance_phase b (.inl hr) hp, hr] at h
    · simp [Deser.advance_fall b hr hp] at h
  | low =>
    by_cases hp : d.halfCnt.toNat + 1 < c.cfgSckHalf.toNat
    · simp [Deser.advance_phase b (.inr hr) hp, hr] at h
    · by_cases hm : d.pulseCnt.toNat < c.pulses
      · simp [Deser.advance_rise b hr hp hm] at h
      · exact .inl ⟨rfl, by rw [Deser.advance_complete b hr hp hm]⟩

/-- Settles O49. -/
theorem readCannotBeCancelled : Obligations.ReadCannotBeCancelled := by
  intro s s' t t' hb hd hc hdout hr hr' h h'
  have ht := step_deser_busy hb hr h
  have ht' := step_deser_busy (hd ▸ hb) hr' h'
  rw [hd, hc, hdout] at ht'
  exact ⟨ht.trans ht'.symm, fun hi => ht ▸ Deser.advance_ends hb (ht ▸ hi)⟩

/-- SCK is low in every state other than HIGH. -/
theorem State.sck_eq_false {s : State} (h : s.deser.rdState ≠ .high) : s.sck = false :=
  Bool.eq_false_of_not_eq_true (mt s.sck_iff.1 h)

/-- Settles O45. -/
theorem highPhaseAndFallingEdge : Obligations.HighPhaseAndFallingEdge := by
  intro s hs ha
  obtain ⟨t, hstep, ht⟩ := step_busy (by simp [hs]) ha
  refine ⟨t, hstep, fun hp => ht.trans (Deser.advance_phase _ (.inl hs) hp), fun hlast => ?_⟩
  rw [Deser.advance_fall _ hs (by omega)] at ht
  have hsck : t.sck = false := State.sck_eq_false (by simp [ht])
  rw [ht]
  refine ⟨rfl, rfl, rfl, hsck, rfl, rfl, rfl, rfl, fun hdata => ?_, fun hextra => ?_⟩
  · have hlt : s.deser.pulseCnt < 24#5 := hdata
    simp only [hlt, if_true]
    refine ⟨by rw [shiftIn_getLsbD, if_pos rfl], fun j hj => ?_⟩
    rw [shiftIn_getLsbD, if_neg (by omega), decide_eq_true (by omega), Bool.true_and, Nat.add_sub_cancel]
  · have hge : ¬s.deser.pulseCnt < 24#5 := not_lt.2 hextra
    simp only [hge, if_false]

/-- `sext_32` as 40_adc_deserializer.md R88 writes it: a negative number gets eight ones above it. -/
theorem sext32_eq (v : BitVec 24) :
    sext32 v = if v.getLsbD 23 then v.setWidth 32 + 0xFF000000#32 else v.setWidth 32 := by
  have hlt := v.isLt
  apply BitVec.eq_of_toNat_eq
  rw [sext32, BitVec.toNat_signExtend, BitVec.msb_eq_getLsbD_last]
  split
  · rw [BitVec.toNat_add, BitVec.toNat_setWidth_of_le (by omega), BitVec.toNat_ofNat]
    omega
  · rfl

/-- A sign-extended number as an integer. -/
theorem sext32_toInt (v : BitVec 24) :
    (sext32 v).toInt = (v.toNat : Int) - (if v.getLsbD 23 then 2 ^ 24 else 0) := by
  rw [sext32, BitVec.toInt_signExtend_of_le (by omega), BitVec.toInt_eq_msb_cond, BitVec.msb_eq_getLsbD_last]
  cases v.getLsbD (24 - 1) <;> simp

/-- Settles O46. -/
theorem lowPhaseAndCompletion : Obligations.LowPhaseAndCompletion := by
  intro s hs ha
  obtain ⟨t, hstep, ht⟩ := step_busy (by simp [hs]) ha
  refine ⟨t, hstep, fun hp => ht.trans (Deser.advance_phase _ (.inr hs) hp),
    fun hlast hmore => ht.trans (Deser.advance_rise _ hs (by omega) hmore), fun hlast hdone => ?_⟩
  rw [Deser.advance_complete _ hs (by omega) hdone.not_lt] at ht
  exact ⟨by rw [ht, sext32_eq], by rw [ht, sext32_toInt]⟩

/-! ## IDLE (40_adc_deserializer.md R82) -/

/-- No command but READ touches the deserializer. -/
theorem exec_deser {i : Instr} {s t : State} (hi : i ≠ .read) (h : exec i s = .next t) : t.deser = s.deser := by
  have hchecked {code : Option ErrCode} {u : State} (h : checked code s u = .next t) (hu : u.deser = s.deser) :
      t.deser = s.deser := by
    obtain ⟨c, rfl⟩ | rfl := checked_cases h
    · exact s.recordError_deser c
    · exact hu
  cases i with
  | read => exact absurd rfl hi
  | nop | clear => cases h; rfl
  | cfgExtra _ | cfgTimeout _ | cfgSck _ | cfgPwm _ | lock => exact hchecked h rfl
  | apply dir duty =>
    simp only [exec, execApply] at h
    cases ha : applyCheck s dir duty <;> simp only [ha] at h <;> cases h <;> simp [State.rejectApply_eq]

theorem rejectWord_deser (e : DecodeError) (s : State) : (rejectWord e s).deser = s.deser := by
  cases e with
  | reservedOpcode => exact s.recordError_deser _
  | reservedBits op => by_cases ho : op = .apply <;> simp [rejectWord, ho, State.rejectApply_eq]

/-- No word but READ's touches the deserializer. -/
theorem commandPhase_deser {w : Word} {s t : State} (hw : w ≠ 0x60000000#32) (h : commandPhase w s = .next t) :
    t.deser = s.deser := by
  cases hd : decode w with
  | ok i =>
    rw [commandPhase_of_decode_ok s hd] at h
    exact exec_deser (fun hi => hw ((decode_eq_ok_iff w .read).1 (hi ▸ hd))) h
  | error e =>
    rw [commandPhase_of_decode_error s hd] at h
    cases h
    exact rejectWord_deser e s

/-- The command phase of an accepted READ. -/
theorem State.postCommand_read {s : State} (hc : s.input.command = some 0x60000000#32) (hl : s.conf.locked = true)
    (hi : s.deser.rdState = .idle) : s.postCommand = s.setDeser s.deser.startRead :=
  State.postCommand_some hc ((commandPhase_read s).trans (exec_read_accepted hl hi))

/-- The command phase of every other cycle leaves the deserializer. -/
theorem State.postCommand_deser {s : State} (h : ¬(s.input.command = some 0x60000000#32 ∧ s.conf.locked = true)) :
    s.postCommand.deser = s.deser := by
  obtain ⟨-, hp⟩ | ⟨w, hc, hp⟩ := s.postCommand_cases
  · rw [hp]
  · by_cases hw : w = 0x60000000#32
    · exact s.postCommand_effect.deser.resolve_right fun hread => h ⟨hw ▸ hc, hread.2.1⟩
    · exact commandPhase_deser hw hp

/-- Settles O47. -/
theorem idleDeserializerChangesOnlyByRead : Obligations.IdleDeserializerChangesOnlyByRead := by
  intro s hi ha
  refine ⟨_, step_admitted ha, fun hc hl => ?_, fun h => ?_⟩ <;> rw [enginePhase_deser_idle _ hi]
  · rw [State.postCommand_read hc hl hi]
    exact ⟨rfl, rfl, rfl, rfl⟩
  · exact State.postCommand_deser h

end Sys2Proof.Machine
end

section
namespace Sys2Proof.Machine

/-! ## A whole read (40_adc_deserializer.md R83 to R91)

A read in progress runs from its own fields, the configuration and the values of DOUT alone, so its timing is that of
`Deser.run`, one advance a cycle, and carries over to the block's run. -/

/-- The deserializer after `k` advances, DOUT of the `j`-th being `b j`. -/
def Deser.run (c : Conf) (b : Nat → Bool) (d : Deser) : Nat → Deser
  | 0 => d
  | k + 1 => (Deser.run c b d k).advance c (b k)

theorem Deser.run_succ (c : Conf) (b : Nat → Bool) (d : Deser) (k : Nat) :
    d.run c b (k + 1) = (d.run c b k).advance c (b k) := rfl

/-- A run of advances splits where one likes. -/
theorem Deser.run_add (c : Conf) (b : Nat → Bool) (d : Deser) (j k : Nat) :
    d.run c b (j + k) = (d.run c b j).run c (fun i => b (j + i)) k := by
  induction k with
  | zero => rfl
  | succ k ih => rw [← Nat.add_assoc, Deser.run_succ, ih, Deser.run_succ]

/-! ### The block's run follows -/

theorem doutAt_after {s u : State} {k : Nat} (h : s.after k = some u) (j : Nat) : u.doutAt j = s.doutAt (k + j) := by
  induction k generalizing s with
  | zero => cases h; rw [Nat.zero_add]
  | succ k ih =>
    obtain ⟨t, ht, hu⟩ := after_succ_cases h
    rw [ih hu, doutAt_step ht]
    congr 1; omega

theorem dout_of_after {s u : State} {k : Nat} (h : s.after k = some u) : u.dout = s.doutAt k := by
  rw [← doutAt_zero, doutAt_after h, Nat.add_zero]

theorem admitted_of_after {s u : State} {k n : Nat} (hu : s.Undisturbed n) (hk : k < n) (h : s.after k = some u) :
    u.input.admitted := by
  rw [← inputAt_zero, inputAt_after h, Nat.add_zero]
  exact hu k hk

/-- A locked block keeps its configuration in every admitted cycle. -/
theorem enginePhase_postCommand_conf {s : State} (hl : s.conf.locked = true) :
    (enginePhase s s.postCommand).conf = s.conf :=
  s.postCommand_effect.conf_of_locked hl

/-- For as long as a read of a locked block goes on undisturbed, the block's deserializer is the run of advances. -/
theorem after_deser_run {s : State} {n : Nat} (hl : s.conf.locked = true) (hu : s.Undisturbed n)
    (hb : ∀ j, j < n → (s.deser.run s.conf s.doutAt j).rdState ≠ .idle) (k : Nat) (hk : k ≤ n) :
    ∃ u, s.after k = some u ∧ u.conf = s.conf ∧ u.deser = s.deser.run s.conf s.doutAt k := by
  induction k with
  | zero => exact ⟨s, rfl, rfl, rfl⟩
  | succ k ih =>
    obtain ⟨u, hafter, hconf, hdeser⟩ := ih (by omega)
    have hstep := step_admitted (admitted_of_after hu hk hafter)
    refine ⟨enginePhase u u.postCommand, by rw [after_snoc, hafter, Option.bind_some, hstep],
      (enginePhase_postCommand_conf (hconf ▸ hl)).trans hconf, ?_⟩
    rw [enginePhase_deser_busy _ (hdeser ▸ hb k hk), dout_of_after hafter, hconf, hdeser, Deser.run_succ]

/-! ### The ready checks (R83) -/

/-- While DOUT is high and the timeout is not reached, WAIT counts its checks. -/
theorem Deser.run_wait {c : Conf} {d : Deser} {b : Nat → Bool} (hw : d.rdState = .wait) (h0 : d.waitCnt = 0#24)
    {k : Nat} (hk : k ≤ c.cfgTimeout.toNat) (hb : ∀ j, j < k → b j = true) :
    d.run c b k = { d with waitCnt := BitVec.ofNat 24 k } := by
  induction k with
  | zero => rw [← h0]; rfl
  | succ k ih =>
    have hne : BitVec.ofNat 24 k ≠ c.cfgTimeout := fun h => by
      have := c.cfgTimeout.isLt
      rw [← h, BitVec.toNat_ofNat, Nat.mod_eq_of_lt (by omega)] at hk
      omega
    rw [Deser.run_succ, ih (by omega) fun j hj => hb j (by omega), Deser.advance_wait _ (by exact hw), hb k (by omega)]
    simp [hne, BitVec.ofNat_add]

/-- The first check that finds DOUT low starts the first pulse. -/
theorem Deser.run_ready {c : Conf} {d : Deser} {b : Nat → Bool} (hw : d.rdState = .wait) (h0 : d.waitCnt = 0#24)
    {w : Nat} (hk : w ≤ c.cfgTimeout.toNat) (hb : ∀ j, j < w → b j = true) (hready : b w = false) :
    d.run c b (w + 1) = { d with rdState := .high, waitCnt := BitVec.ofNat 24 w, halfCnt := 0 } := by
  rw [Deser.run_succ, Deser.run_wait hw h0 hk hb, Deser.advance_wait _ (by exact hw), if_pos hready]

/-- A read whose checks all find DOUT high fails at the last. -/
theorem Deser.run_timeout {c : Conf} {d : Deser} {b : Nat → Bool} (hw : d.rdState = .wait) (h0 : d.waitCnt = 0#24)
    (hb : ∀ j, j ≤ c.cfgTimeout.toNat → b j = true) :
    d.run c b (c.cfgTimeout.toNat + 1) = { d with rdState := .idle, waitCnt := c.cfgTimeout, nrdy := true } := by
  rw [Deser.run_succ, Deser.run_wait hw h0 le_rfl fun j hj => hb j hj.le, Deser.advance_wait _ (by exact hw),
    hb _ le_rfl]
  simp

/-- The run of a read whose checks all find DOUT high: WAIT for `cfg_timeout + 1` checks, then failed. -/
theorem after_timeout {s : State} (hl : s.conf.locked = true) (hw : s.deser.rdState = .wait)
    (h0 : s.deser.waitCnt = 0#24) (hu : s.Undisturbed (s.conf.cfgTimeout.toNat + 1))
    (hb : ∀ k, k ≤ s.conf.cfgTimeout.toNat → s.doutAt k = true) :
    (∀ k, k ≤ s.conf.cfgTimeout.toNat → ∃ u, s.after k = some u ∧ u.deser.rdState = .wait) ∧
      ∃ t, s.after (s.conf.cfgTimeout.toNat + 1) = some t ∧
        t.deser = { s.deser with rdState := .idle, waitCnt := s.conf.cfgTimeout, nrdy := true } := by
  have hwait : ∀ k, k ≤ s.conf.cfgTimeout.toNat → (s.deser.run s.conf s.doutAt k).rdState = .wait := fun k hk => by
    rw [Deser.run_wait hw h0 hk fun j hj => hb j (by omega)]
    exact hw
  have hrun := after_deser_run hl hu fun j hj => by simp [hwait j (by omega)]
  refine ⟨fun k hk => ?_, ?_⟩
  · obtain ⟨u, hafter, -, hd⟩ := hrun k (by omega)
    exact ⟨u, hafter, hd ▸ hwait k hk⟩
  · obtain ⟨t, hafter, -, hd⟩ := hrun _ le_rfl
    exact ⟨t, hafter, hd.trans (Deser.run_timeout hw h0 hb)⟩

/-- Settles O44. -/
theorem readyCheck : Obligations.ReadyCheck := by
  intro s hw
  have hbusy : s.deser.rdState ≠ .idle := by simp [hw]
  refine ⟨fun ha => ?_, fun hinv h0 hu hb => ?_⟩
  · obtain ⟨t, hstep, ht⟩ := step_busy hbusy ha
    exact ⟨t, hstep, ht.trans (Deser.advance_wait _ hw)⟩
  · obtain ⟨hwait, t, hafter, ht⟩ := after_timeout (hinv.busyLocked hbusy) hw h0 hu hb
    refine ⟨fun k hk => ?_, t, hafter, ?_⟩
    · obtain ⟨u, hk, hs⟩ := hwait k hk
      exact ⟨u, hk, hs, State.sck_eq_false (by simp [hs])⟩
    · have hsck : t.sck = false := State.sck_eq_false (by simp [ht])
      rw [ht]
      exact ⟨rfl, rfl, (hinv.outcomeOk.1 hbusy).1, rfl, hsck⟩

end Sys2Proof.Machine
end

section
namespace Sys2Proof.Machine

/-! ### SCK phases and pulses (R84 to R88) -/

/-- The cycles of a HIGH or LOW phase. -/
theorem Deser.run_phase {c : Conf} {d : Deser} (b : Nat → Bool) (hr : d.rdState = .high ∨ d.rdState = .low)
    (h0 : d.halfCnt = 0#8) {j : Nat} (hj : j < c.cfgSckHalf.toNat) :
    d.run c b j = { d with halfCnt := BitVec.ofNat 8 j } := by
  induction j with
  | zero => rw [← h0]; rfl
  | succ j ih =>
    have hlt : (BitVec.ofNat 8 j).toNat + 1 < c.cfgSckHalf.toNat := by
      rw [BitVec.toNat_ofNat]
      exact (Nat.succ_le_succ (Nat.mod_le _ _)).trans_lt hj
    rw [Deser.run_succ, ih (by omega), Deser.advance_phase _ (by exact hr) hlt, BitVec.ofNat_add]
    rfl

/-- The last cycle of a phase, where `half_cnt` has its last value. -/
theorem Deser.run_phase_last {c : Conf} {d : Deser} (b : Nat → Bool) (hr : d.rdState = .high ∨ d.rdState = .low)
    (h0 : d.halfCnt = 0#8) (hh : 0 < c.cfgSckHalf.toNat) :
    ∃ v : BitVec 8, ¬v.toNat + 1 < c.cfgSckHalf.toNat ∧
      d.run c b c.cfgSckHalf.toNat = Deser.advance c { d with halfCnt := v } (b (c.cfgSckHalf.toNat - 1)) := by
  have hlt := c.cfgSckHalf.isLt
  refine ⟨BitVec.ofNat 8 (c.cfgSckHalf.toNat - 1), ?_, ?_⟩
  · rw [BitVec.toNat_ofNat, Nat.mod_eq_of_lt (by omega)]
    omega
  · rw [← Deser.run_phase b hr h0 (Nat.sub_lt hh one_pos), ← Deser.run_succ,
      Nat.sub_add_cancel (Nat.one_le_of_lt hh)]

/-- The accumulator after `k` pulses, the bit at data pulse `i` being `bit i` (R85). -/
def captured (bit : Nat → Bool) : Nat → BitVec 24
  | 0 => 0#24
  | k + 1 => if k < 24 then shiftIn (captured bit k) (bit k) else captured bit k

/-- The deserializer in the first cycle of HIGH (`rd = .high`) or LOW (`rd = .low`) with `k` falling edges done. -/
def Deser.atEdge (d : Deser) (rd : RdState) (bit : Nat → Bool) (k : Nat) : Deser :=
  { d with rdState := rd, halfCnt := 0, pulseCnt := BitVec.ofNat 5 k, acc := captured bit k }

theorem pulse_toNat {c : Conf} {k : Nat} (hk : k ≤ c.pulses) : (BitVec.ofNat 5 k).toNat = k := by
  have := c.pulses_le
  rw [BitVec.toNat_ofNat, Nat.mod_eq_of_lt (by omega)]

/-- Pulse `k` is high for one phase and then falls, with its bit captured in the phase's last cycle. -/
theorem Deser.run_high {c : Conf} (d : Deser) {b bit : Nat → Bool} {k : Nat} (hh : 0 < c.cfgSckHalf.toNat)
    (hk : k < c.pulses) (hbit : bit k = b (c.cfgSckHalf.toNat - 1)) :
    (d.atEdge .high bit k).run c b c.cfgSckHalf.toNat = d.atEdge .low bit (k + 1) := by
  obtain ⟨v, hv, hrun⟩ := Deser.run_phase_last b (d := d.atEdge .high bit k) (.inl rfl) rfl hh
  have hdata : BitVec.ofNat 5 k < 24#5 ↔ k < 24 := by rw [BitVec.lt_def, pulse_toNat hk.le]; rfl
  rw [hrun, Deser.advance_fall _ (by rfl) hv]
  simp only [Deser.atEdge, captured, hdata, hbit, BitVec.ofNat_add]
  rfl

/-- After a LOW phase with pulses left the next pulse rises. -/
theorem Deser.run_low {c : Conf} (d : Deser) (b : Nat → Bool) {bit : Nat → Bool} {k : Nat}
    (hh : 0 < c.cfgSckHalf.toNat) (hk : k < c.pulses) :
    (d.atEdge .low bit k).run c b c.cfgSckHalf.toNat = d.atEdge .high bit k := by
  obtain ⟨v, hv, hrun⟩ := Deser.run_phase_last b (d := d.atEdge .low bit k) (.inr rfl) rfl hh
  rw [hrun, Deser.advance_rise _ (by rfl) hv ((pulse_toNat hk.le).trans_lt hk)]
  rfl

/-- After the last LOW phase the read is complete. -/
theorem Deser.run_low_last {c : Conf} (d : Deser) (b : Nat → Bool) {bit : Nat → Bool} (hh : 0 < c.cfgSckHalf.toNat) :
    ∃ v : BitVec 8, (d.atEdge .low bit c.pulses).run c b c.cfgSckHalf.toNat =
      { d.atEdge .idle bit c.pulses with halfCnt := v, sample := sext32 (captured bit c.pulses), valid := true } := by
  obtain ⟨v, hv, hrun⟩ := Deser.run_phase_last b (d := d.atEdge .low bit c.pulses) (.inr rfl) rfl hh
  refine ⟨v, ?_⟩
  have hdone : ¬(BitVec.ofNat 5 c.pulses).toNat < c.pulses := (pulse_toNat le_rfl).ge.not_gt
  rw [hrun, Deser.advance_complete _ (by rfl) hv hdone]
  rfl

/-! ### The result (R91) -/

/-- The bits captured at the first 24 pulses, the first the most significant. -/
theorem captured_getLsbD (bit : Nat → Bool) {k i : Nat} (hk : k ≤ 24) (hi : i < k) :
    (captured bit k).getLsbD i = bit (k - 1 - i) := by
  induction k generalizing i with
  | zero => omega
  | succ k ih =>
    rw [captured, if_pos (by omega), shiftIn_getLsbD]
    cases i with
    | zero => rfl
    | succ i =>
      rw [if_neg (by omega), decide_eq_true (by omega), Bool.true_and, Nat.add_sub_cancel, ih (by omega) (by omega)]
      congr 1; omega

/-- The extra pulses capture nothing. -/
theorem captured_extra (bit : Nat → Bool) (e : Nat) : captured bit (24 + e) = captured bit 24 := by
  induction e with
  | zero => rfl
  | succ e ih => rw [← Nat.add_assoc, captured, if_neg (by omega), ih]

/-- The pulses of a read capture the number whose bits the ADC sends from bit 23 down. -/
theorem captured_pulses {c : Conf} {bit : Nat → Bool} {raw : BitVec 24}
    (h : ∀ k, k < 24 → bit k = raw.getLsbD (23 - k)) : captured bit c.pulses = raw := by
  rw [Conf.pulses, captured_extra]
  apply BitVec.eq_of_getLsbD_eq
  intro i hi
  rw [captured_getLsbD bit le_rfl hi, h _ (by omega)]
  congr 1; omega

/-! ### The waveform (R90) -/

/-- A read about to make its first ready check, whose check `w` cycles later is the first to find DOUT low. -/
structure Deser.ReadStarts (c : Conf) (d : Deser) (b : Nat → Bool) (w : Nat) : Prop where
  wait : d.rdState = .wait
  waitCnt : d.waitCnt = 0#24
  pulseCnt : d.pulseCnt = 0#5
  acc : d.acc = 0#24
  half_pos : 0 < c.cfgSckHalf.toNat
  inTime : w ≤ c.cfgTimeout.toNat
  notReady : ∀ j, j < w → b j = true
  ready : b w = false

/-- DOUT at the capture cycle of pulse `k`. -/
def captureBit (c : Conf) (b : Nat → Bool) (w k : Nat) : Bool :=
  b (w + c.cfgSckHalf.toNat + 2 * c.cfgSckHalf.toNat * k)

/-- Every pulse lies before the completion state. -/
theorem pulse_le {c : Conf} (w : Nat) {k j : Nat} (hk : k < c.pulses) (hj : j < c.cfgSckHalf.toNat) :
    1 + w + 2 * c.cfgSckHalf.toNat * k + c.cfgSckHalf.toNat + j ≤ 1 + w + 2 * c.cfgSckHalf.toNat * c.pulses := by
  have hle := Nat.mul_le_mul_left (2 * c.cfgSckHalf.toNat) (Nat.succ_le_of_lt hk)
  rw [Nat.mul_succ] at hle
  omega

section
variable {c : Conf} {d : Deser} {b : Nat → Bool} {w : Nat} (h : d.ReadStarts c b w)
include h

theorem Deser.ReadStarts.run_wait {j : Nat} (hj : j ≤ w) : (d.run c b j).rdState = .wait := by
  rw [Deser.run_wait h.wait h.waitCnt (hj.trans h.inTime) fun i hi => h.notReady i (by omega)]
  exact h.wait

/-- Pulse `k`'s falling edge, given its rising edge. -/
theorem Deser.ReadStarts.run_fall_of_rise {e : Deser} {k : Nat} (hk : k < c.pulses)
    (hrise : d.run c b (1 + w + 2 * c.cfgSckHalf.toNat * k) = e.atEdge .high (captureBit c b w) k) :
    d.run c b (1 + w + 2 * c.cfgSckHalf.toNat * k + c.cfgSckHalf.toNat) =
      e.atEdge .low (captureBit c b w) (k + 1) := by
  have hpos := h.half_pos
  rw [Deser.run_add, hrise]
  refine e.run_high hpos hk (congrArg b ?_)
  omega

/-- Pulse `k` rises 2hk cycles after the first one. -/
theorem Deser.ReadStarts.run_rise {k : Nat} (hk : k < c.pulses) :
    d.run c b (1 + w + 2 * c.cfgSckHalf.toNat * k) =
      Deser.atEdge { d with waitCnt := BitVec.ofNat 24 w } .high (captureBit c b w) k := by
  induction k with
  | zero =>
    rw [Nat.mul_zero, Nat.add_zero, Nat.add_comm, Deser.run_ready h.wait h.waitCnt h.inTime h.notReady h.ready]
    simp only [Deser.atEdge, captured, ← h.pulseCnt, ← h.acc]
  | succ k ih =>
    rw [show 1 + w + 2 * c.cfgSckHalf.toNat * (k + 1) =
        1 + w + 2 * c.cfgSckHalf.toNat * k + c.cfgSckHalf.toNat + c.cfgSckHalf.toNat by rw [Nat.mul_succ]; omega,
      Deser.run_add, h.run_fall_of_rise (by omega) (ih (by omega)), Deser.run_low _ _ h.half_pos hk]

theorem Deser.ReadStarts.run_fall {k : Nat} (hk : k < c.pulses) :
    d.run c b (1 + w + 2 * c.cfgSckHalf.toNat * k + c.cfgSckHalf.toNat) =
      Deser.atEdge { d with waitCnt := BitVec.ofNat 24 w } .low (captureBit c b w) (k + 1) :=
  h.run_fall_of_rise hk (h.run_rise hk)

/-- SCK is high in the first half of pulse `k` and low in the second. -/
theorem Deser.ReadStarts.run_pulse {k j : Nat} (hk : k < c.pulses) (hj : j < c.cfgSckHalf.toNat) :
    (d.run c b (1 + w + 2 * c.cfgSckHalf.toNat * k + j)).rdState = .high ∧
      (d.run c b (1 + w + 2 * c.cfgSckHalf.toNat * k + c.cfgSckHalf.toNat + j)).rdState = .low := by
  rw [Deser.run_add, h.run_rise hk, Deser.run_phase _ (.inl rfl) rfl hj, Deser.run_add, h.run_fall hk,
    Deser.run_phase _ (.inr rfl) rfl hj]
  exact ⟨rfl, rfl⟩

/-- The read is in progress up to the completion state. -/
theorem Deser.ReadStarts.run_busy {j : Nat} (hj : j < 1 + w + 2 * c.cfgSckHalf.toNat * c.pulses) :
    (d.run c b j).rdState ≠ .idle := by
  by_cases hw : j ≤ w
  · simp [h.run_wait hw]
  · have hk : (j - 1 - w) / (2 * c.cfgSckHalf.toNat) < c.pulses := Nat.div_lt_of_lt_mul (by omega)
    have hi : (j - 1 - w) % (2 * c.cfgSckHalf.toNat) < 2 * c.cfgSckHalf.toNat :=
      Nat.mod_lt _ (Nat.mul_pos two_pos h.half_pos)
    have hsplit := Nat.div_add_mod (j - 1 - w) (2 * c.cfgSckHalf.toNat)
    generalize (j - 1 - w) / (2 * c.cfgSckHalf.toNat) = k at hk hsplit
    generalize (j - 1 - w) % (2 * c.cfgSckHalf.toNat) = i at hi hsplit
    by_cases hhalf : i < c.cfgSckHalf.toNat
    · rw [show j = 1 + w + 2 * c.cfgSckHalf.toNat * k + i by omega, (h.run_pulse hk hhalf).1]
      decide
    · rw [show j = 1 + w + 2 * c.cfgSckHalf.toNat * k + c.cfgSckHalf.toNat + (i - c.cfgSckHalf.toNat) by omega,
        (h.run_pulse hk (by omega)).2]
      decide

/-- The completion state. -/
theorem Deser.ReadStarts.run_complete :
    ∃ v : BitVec 8, d.run c b (1 + w + 2 * c.cfgSckHalf.toNat * c.pulses) =
      { Deser.atEdge { d with waitCnt := BitVec.ofNat 24 w } .idle (captureBit c b w) c.pulses with
        halfCnt := v, sample := sext32 (captured (captureBit c b w) c.pulses), valid := true } := by
  obtain ⟨m, hm⟩ : ∃ m, c.pulses = m + 1 := ⟨23 + c.cfgExtra.toNat, by rw [Conf.pulses]; omega⟩
  have hlast : 1 + w + 2 * c.cfgSckHalf.toNat * c.pulses =
      1 + w + 2 * c.cfgSckHalf.toNat * m + c.cfgSckHalf.toNat + c.cfgSckHalf.toNat := by
    rw [hm, Nat.mul_succ]
    omega
  rw [hlast, Deser.run_add, h.run_fall (by omega), ← hm]
  exact Deser.run_low_last _ _ h.half_pos

end

theorem State.busy_iff (s : State) : s.busy = true ↔ s.deser.rdState ≠ .idle := by simp [State.busy]

/-- The block right after an accepted READ. -/
theorem step_read {s r : State} (hl : s.conf.locked = true) (hi : s.deser.rdState = .idle) (ha : s.input.admitted)
    (hc : s.input.command = some 0x60000000#32) (h : step s = .next r) :
    r.conf = s.conf ∧ r.deser = s.deser.startRead := by
  rw [step_admitted ha, State.postCommand_read hc hl hi] at h
  cases h
  exact ⟨rfl, enginePhase_deser_idle _ hi⟩

/-- Settles O50: the block's run is the deserializer's, pulse by pulse. -/
theorem readTimingAndResult : Obligations.ReadTimingAndResult := by
  intro s r w hinv hl hi ha hc hstep
  obtain ⟨hconf, hdeser⟩ := step_read hl hi ha hc hstep
  have hlocked : r.conf.locked = true := hconf ▸ hl
  have hpos : 0 < r.conf.cfgSckHalf.toNat := hconf ▸ (s.inv_iff.1 hinv).1.half_pos hl
  have hwait : r.deser.rdState = .wait := by rw [hdeser]; rfl
  have hcnt : r.deser.waitCnt = 0#24 := by rw [hdeser]; rfl
  refine ⟨fun hw hready hu => ?_, fun hb hu => ?_, by decide, by decide, by decide, by decide⟩
  · have hstart : r.deser.ReadStarts r.conf r.doutAt w :=
      ⟨hwait, hcnt, by rw [hdeser]; rfl, by rw [hdeser]; rfl, hpos, hw, hready.1, hready.2⟩
    have hrun := after_deser_run hlocked hu fun j => hstart.run_busy
    refine ⟨fun j hj => ?_, fun j hj => ?_, fun k j hk hj => ?_, ?_⟩
    · obtain ⟨u, hafter, -, hd⟩ := hrun j hj.le
      exact ⟨u, hafter, u.busy_iff.2 (hd ▸ hstart.run_busy hj)⟩
    · obtain ⟨u, hafter, -, hd⟩ := hrun j (by omega)
      exact ⟨u, hafter, State.sck_eq_false (by simp [hd, hstart.run_wait hj])⟩
    · have hle := pulse_le w hk hj
      obtain ⟨hhigh, hlow⟩ := hstart.run_pulse hk hj
      obtain ⟨u, hafter, -, hd⟩ := hrun (1 + w + 2 * r.conf.cfgSckHalf.toNat * k + j) (by omega)
      obtain ⟨u', hafter', -, hd'⟩ := hrun _ hle
      exact ⟨⟨u, hafter, u.sck_iff.2 (hd ▸ hhigh)⟩, u', hafter', State.sck_eq_false (by simp [hd', hlow])⟩
    · obtain ⟨t, hafter, -, hd⟩ := hrun _ le_rfl
      obtain ⟨v, hv⟩ := hstart.run_complete
      refine ⟨t, hafter, ?_⟩
      rw [State.busy, hd.trans hv, hdeser]
      exact ⟨rfl, rfl, rfl, rfl, fun raw hraw =>
        congrArg sext32 (captured_pulses (bit := captureBit r.conf r.doutAt w) hraw)⟩
  · obtain ⟨hchecks, t, hafter, ht⟩ := after_timeout hlocked hwait hcnt hu hb
    refine ⟨fun j hj => ?_, t, hafter, by rw [ht], by rw [ht], by rw [State.busy, ht]; rfl⟩
    obtain ⟨u, hafter, hs⟩ := hchecks j hj
    exact ⟨u, hafter, u.busy_iff.2 (by simp [hs])⟩

end Sys2Proof.Machine
end

section
namespace Sys2Proof.Machine

/-! ## CFG_PWM and APPLY (41_pwm_generator.md R100 to R108) -/

/-- The configured lengths keep the period in a range that `stop_cnt` can count. -/
theorem Conf.period_le (c : Conf) : c.period ≤ 6553500 := by
  have := c.cfgSlice.isLt
  rw [Conf.period]
  omega

theorem Conf.period_pos {c : Conf} (h : c.cfgSlice ≠ 0#16) : 0 < c.period :=
  Nat.mul_pos (by omega) (Nat.pos_of_ne_zero fun h0 => h (BitVec.eq_of_toNat_eq h0))

/-- Settles O15. -/
theorem cfgPwmRule : Obligations.CfgPwmRule := by
  intro s p
  refine ⟨decode_encode (.cfgPwm p), fun hl hp => ⟨?_, rfl, ?_, Conf.period_le { s.conf with cfgSlice := p }⟩,
    fun hl => ?_, fun hl hp => ?_, fun w => ?_, ⟨_, rfl, rfl, rfl⟩⟩
  · simp [exec, execCfgPwm, configCheck_of_unlocked hl, wfSlice, hp, checked, State.setCfgSlice]
  · have : p.toNat ≠ 0 := fun h0 => hp (BitVec.eq_of_toNat_eq h0)
    omega
  · rw [exec, execCfgPwm, configCheck_of_locked hl, checked]
  · simp [exec, execCfgPwm, configCheck_of_unlocked hl, wfSlice, hp, checked]
  · exact commandPhase_reservedField s 16 12 rfl (by decide) (by decide)

/-! ### The intake's choice (R102 to R108) -/

theorem Pwm.applyIntake_stop {p : Pwm} {d : Dir} {duty : BitVec 7} (h : d = .stop ∨ duty = 0#7) :
    p.applyIntake d duty = p.stopIntake := if_pos h

section
variable {p : Pwm} {d : Dir} {duty : BitVec 7} (hd : d ≠ .stop) (hD : duty ≠ 0#7)
include hd hD

/-- From STOP a drive becomes pending: R106. -/
theorem Pwm.applyIntake_start (hs : p.actDir = .stop) : p.applyIntake d duty = p.setPend d duty := by
  simp [Pwm.applyIntake, hd, hD, hs]

/-- Repeating the active command: R104. -/
theorem Pwm.applyIntake_repeat (hdir : d = p.actDir) (hduty : duty = p.actDuty) :
    p.applyIntake d duty = p.clearPend := by
  subst hdir hduty
  simp [Pwm.applyIntake, hd, hD]

/-- Another duty in the active direction: R105. -/
theorem Pwm.applyIntake_newDuty (hdir : d = p.actDir) (hduty : duty ≠ p.actDuty) :
    p.applyIntake d duty = p.setPend d duty := by
  subst hdir
  simp [Pwm.applyIntake, hd, hD, hduty]

/-- The other direction: R107. -/
theorem Pwm.applyIntake_reverse (hs : p.actDir ≠ .stop) (hdir : d ≠ p.actDir) :
    p.applyIntake d duty = p.reverse d duty := by
  simp [Pwm.applyIntake, hd, hD, hs, hdir]

end

/-! ### APPLY accepted and rejected -/

/-- A rejected APPLY is the recorded error with the STOP of R108. -/
theorem State.rejectApply_eq_stopped (s : State) (c : ErrCode) :
    s.rejectApply c = { s.recordError c with pwm := s.pwm.stopIntake } := s.rejectApply_eq c

theorem exec_apply_unlocked {s : State} (hl : s.conf.locked = false) (dir : DirField) (duty : BitVec 7) :
    exec (.apply dir duty) s = .next { s.recordError .notLocked with pwm := s.pwm.stopIntake } := by
  simp only [exec, execApply, applyCheck, hl, if_true, State.rejectApply_eq_stopped]

theorem exec_apply_illegal {s : State} {dir : DirField} {duty : BitVec 7} (hl : s.conf.locked = true)
    (h : dir = .reserved ∨ 100 < duty.toNat) :
    exec (.apply dir duty) s = .next { s.recordError .illegalValue with pwm := s.pwm.stopIntake } := by
  have hcheck : applyCheck s dir duty = .error .illegalValue := by
    obtain rfl | hD := h
    · simp [applyCheck, hl, direction]
    · cases dir <;> simp [applyCheck, hl, direction, wfDuty, hD]
  simp only [exec, execApply, hcheck, State.rejectApply_eq_stopped]

/-- A word of APPLY's opcode with a bit of [27:9] set is rejected with code 2. -/
theorem commandPhase_apply_reservedBits {w : Word} (s : State) (hop : w.extractLsb' 28 4 = 0x7#4)
    (hf : w.extractLsb' 9 19 ≠ 0#19) :
    commandPhase w s = .next { s.recordError .reservedBits with pwm := s.pwm.stopIntake } := by
  have hmask : w &&& Opcode.reservedMask .apply ≠ 0#32 := masked_of_field 9 19 hf (by decide)
  rw [commandPhase_reservedBits s (hop ▸ rfl) hmask, rejectWord, if_pos rfl, State.rejectApply_eq_stopped]

section
variable {s : State} {dir : DirField} {d : Dir} {duty : BitVec 7} (hl : s.conf.locked = true)
  (hdir : direction dir = some d) (hle : duty.toNat ≤ 100)
include hl hdir hle

/-- An accepted APPLY. -/
theorem exec_apply_accepted : exec (.apply dir duty) s = .next (s.setPwm (s.pwm.applyIntake d duty)) := by
  simp only [exec, execApply, applyCheck_of_legal hl hdir hle]

theorem commandPhase_apply_accepted :
    commandPhase (encode (.apply dir duty)) s = .next (s.setPwm (s.pwm.applyIntake d duty)) :=
  (commandPhase_of_decode_ok s (decode_encode _)).trans (exec_apply_accepted hl hdir hle)

/-- The cycle of an accepted APPLY: the intake, and then PwmAdvance on its result. -/
theorem step_apply_accepted :
    step (s.presentWord (encode (.apply dir duty))) =
      .next (enginePhase s (s.setPwm (s.pwm.applyIntake d duty))) :=
  step_presentWord (commandPhase_apply_accepted hl hdir hle)

end

/-- Settles O18: the five branches of R102 are those of `applyIntake`. -/
theorem applyIntakeChoice : Obligations.ApplyIntakeChoice := by
  intro s dir d duty
  refine ⟨⟨rfl, rfl⟩, ⟨rfl, rfl⟩, ⟨rfl, rfl⟩, ⟨rfl, rfl⟩, decode_encode (.apply dir duty), fun hl hdir hle => ?_,
    fun hl => exec_apply_unlocked hl dir duty, exec_apply_illegal,
    fun w => commandPhase_apply_reservedBits s⟩
  have hexec := exec_apply_accepted hl hdir hle
  exact ⟨hexec, _, _, hexec, step_apply_accepted hl hdir hle, rfl⟩

/-- Settles O19. -/
theorem applyStopTakesTheDriveOff : Obligations.ApplyStopTakesTheDriveOff := by
  intro s dir d duty hl hdir hle hstop
  rw [exec_apply_accepted hl hdir hle, Pwm.applyIntake_stop hstop, Pwm.stopIntake_eq]
  cases hs : s.pwm.actDir <;> rfl

/-- With nothing pending there is nothing to clear. -/
theorem Pwm.Inv.clearPend_eq_self {c : Conf} {p : Pwm} (h : p.Inv c) (hv : p.pendValid = false) : p.clearPend = p := by
  obtain ⟨hdir, hduty⟩ := h.noPend hv
  cases p
  simp_all [Pwm.clearPend]

/-- In STOP the intake of STOP clears the pending command, and there is nothing else to take off. -/
theorem Pwm.Inv.stopIntake_of_stop {c : Conf} {p : Pwm} (h : p.Inv c) (hs : p.actDir = .stop) :
    p.stopIntake = p.clearPend := by
  obtain ⟨hslice, htick⟩ := h.stopped hs
  rw [Pwm.stopIntake_eq, if_pos hs, if_pos hs, Pwm.clearPend, hs, h.stop_iff.1 hs, hslice, htick]
  rfl

/-- Setting the pending command pending again changes nothing. -/
theorem Pwm.setPend_self {p : Pwm} (hv : p.pendValid = true) : p.setPend p.pendDir p.pendDuty = p := by
  rw [Pwm.setPend, ← hv]

/-- The intake of the pending command, unless it repeats the active one. -/
theorem Pwm.Inv.applyIntake_pending {c : Conf} {p : Pwm} (h : p.Inv c) (hv : p.pendValid = true)
    (hne : p.actDir = .stop ∨ p.pendDuty ≠ p.actDuty) : p.applyIntake p.pendDir p.pendDuty = p := by
  obtain ⟨hd, hpos, -⟩ := h.pend hv
  have hD := duty_ne_zero hpos
  refine Eq.trans ?_ (Pwm.setPend_self hv)
  by_cases hs : p.actDir = .stop
  · exact Pwm.applyIntake_start hd hD hs
  · exact Pwm.applyIntake_newDuty hd hD ((h.drive hs).2 hv) (hne.resolve_left hs)

/-- Settles O20. -/
theorem applyIsIdempotent : Obligations.ApplyIsIdempotent := by
  intro s dir d duty hinv hl hdir hle
  have hpwm := (s.inv_iff.1 hinv).2.1
  have hexec := exec_apply_accepted hl hdir hle
  refine ⟨fun hd hact hduty hD => ?_, fun hd hs => ?_, fun hv hpd hpD hne => ?_⟩
  · have hintake := Pwm.applyIntake_repeat hd hD hact hduty
    rw [hexec, step_apply_accepted hl hdir hle, step_noAccess, hintake]
    exact ⟨rfl, fun hv => by rw [hpwm.clearPend_eq_self hv]; rfl⟩
  · rw [hexec, Pwm.applyIntake_stop (.inl hd), hpwm.stopIntake_of_stop hs]
    rfl
  · subst hpd hpD
    rw [hexec, hpwm.applyIntake_pending hv hne]
    rfl

/-- The active duty one advance of a drive later: a pending one at the period boundary, else the same. -/
theorem Pwm.advance_actDuty {c : Conf} {p : Pwm} (hs : p.actDir ≠ .stop) :
    (p.advance c).actDuty =
      if ¬p.tickCnt.toNat + 1 < c.cfgSlice.toNat ∧ ¬p.sliceCnt < 99#7 then
        if p.pendValid then p.pendDuty else p.actDuty
      else p.actDuty := by
  by_cases ht : p.tickCnt.toNat + 1 < c.cfgSlice.toNat
  · rw [Pwm.advance_tick hs ht, if_neg fun h => h.1 ht]
  · by_cases hl : p.sliceCnt < 99#7
    · rw [Pwm.advance_slice hs ht hl, if_neg fun h => h.2 hl]
    · rw [Pwm.advance_boundary hs ht hl]
      exact (if_pos ⟨ht, hl⟩).symm

/-- The cycle of an admitted input without a command: both engines advance from this state. -/
theorem step_of_noCommand {s : State} (ha : s.input.admitted) (hc : s.input.command = none) :
    step s = .next (enginePhase s s) := by
  rw [step_admitted ha, State.postCommand_none hc]

/-- Settles O21. -/
theorem newDutyWaitsForTheBoundary : Obligations.NewDutyWaitsForTheBoundary := by
  intro s dir d duty hl hdir hle hd hact hduty hD
  have hintake := Pwm.applyIntake_newDuty hd hD hact hduty
  have hexec := exec_apply_accepted hl hdir hle
  have hstep := step_apply_accepted hl hdir hle
  rw [hintake] at hexec hstep
  refine ⟨hexec, ⟨_, hstep, ?_⟩, fun u ha hc hu hv => ⟨_, step_of_noCommand ha hc, ?_⟩⟩ <;> rw [enginePhase_pwm]
  · have hs : (s.pwm.setPend d duty).actDir ≠ .stop := hact ▸ hd
    exact ⟨(Pwm.advance_drive_keeps hs).1.trans hact.symm, Pwm.advance_actDuty hs⟩
  · have hs : u.pwm.actDir ≠ .stop := hu ▸ hd
    refine ⟨(Pwm.advance_drive_keeps hs).1.trans hu, ?_⟩
    rw [Pwm.advance_actDuty hs, hv]
    rfl

/-- In STOP the pending drive starts in this cycle just where it may. -/
theorem Pwm.advance_actDir_eq_pendDir_iff {c : Conf} {p : Pwm} (hs : p.actDir = .stop) (hd : p.pendDir ≠ .stop) :
    (p.advance c).actDir = p.pendDir ↔ p.mayStart c = true := by
  by_cases hm : p.mayStart c = true
  · rw [Pwm.advance_starts hs hm]
    exact iff_of_true rfl hm
  · rw [Pwm.advance_holds hs hm]
    exact iff_of_false (fun h => hd (h.symm.trans hs)) hm

/-- Settles O22. -/
theorem applyFromStopWaitsForTheHold : Obligations.ApplyFromStopWaitsForTheHold := by
  intro s dir d duty hl hdir hle hd hD hs
  have hexec := exec_apply_accepted hl hdir hle
  have hstep := step_apply_accepted hl hdir hle
  rw [Pwm.applyIntake_start hd hD hs] at hexec hstep
  have hp : (s.pwm.setPend d duty).actDir = .stop := hs
  have hmay : (s.pwm.setPend d duty).mayStart s.conf = true ↔
      LastDir.ofDir d = s.pwm.lastDir ∨ s.conf.period ≤ s.pwm.stopCnt.toNat := by simp [Pwm.mayStart_iff]
  have hconf : (enginePhase s (s.setPwm (s.pwm.setPend d duty))).conf = s.conf := rfl
  have hpwm : (enginePhase s (s.setPwm (s.pwm.setPend d duty))).pwm = (s.pwm.setPend d duty).advance s.conf := rfl
  generalize enginePhase s (s.setPwm (s.pwm.setPend d duty)) = t at hstep hconf hpwm
  refine ⟨hexec, t, hstep, fun h => ?_, fun h => ?_⟩
  · rw [hpwm, Pwm.advance_starts hp (hmay.2 h)]
    exact ⟨rfl, rfl, rfl⟩
  · obtain ⟨hstop, hv, hpd, hpD, hlast⟩ : t.pwm.actDir = .stop ∧ t.pwm.pendValid = true ∧ t.pwm.pendDir = d ∧
        t.pwm.pendDuty = duty ∧ t.pwm.lastDir = s.pwm.lastDir := by
      rw [hpwm, Pwm.advance_holds hp (mt hmay.1 h)]
      exact ⟨hs, rfl, rfl, rfl, rfl⟩
    refine ⟨hstop, hv, hpd, hpD, hlast, fun ha hc => ⟨_, step_of_noCommand ha hc, ?_⟩⟩
    have hiff := Pwm.advance_actDir_eq_pendDir_iff (c := t.conf) hstop (hpd ▸ hd)
    rw [Pwm.mayStart_iff, hpd, hlast, hconf, or_iff_right (mt .inl h), and_iff_right hv] at hiff
    rwa [enginePhase_pwm, hconf]

/-- Only STOP is outside FWD and BWD, so a drive's direction is remembered by whether it is FWD (10_state.md R30). -/
theorem LastDir.ofDir_of_drive {d : Dir} (hd : d ≠ .stop) : LastDir.ofDir d = if d = .fwd then .fwd else .bwd := by
  cases d <;> simp [LastDir.ofDir] at hd ⊢

/-- A reversed drive waits: with the stop count at 0 the new direction does not start in the same cycle. -/
theorem Pwm.advance_reverse {c : Conf} {p : Pwm} {d : Dir} (duty : BitVec 7) (hdir : d ≠ p.actDir)
    (hslice : c.cfgSlice ≠ 0#16) : (p.reverse d duty).advance c = { p.reverse d duty with stopCnt := 1#23 } := by
  refine (Pwm.advance_holds rfl fun hm => ?_).trans rfl
  obtain h | h := ((Pwm.mayStart_iff _ _).1 hm).2
  · exact hdir ((LastDir.ofDir_inj d p.actDir).1 h)
  · exact absurd h (Nat.not_le.2 (Conf.period_pos hslice))

/-- In STOP both lines are low. -/
theorem State.lines_low_of_stop {s : State} (h : s.pwm.actDir = .stop) : s.dirA = false ∧ s.dirB = false := by
  simp [State.dirA, State.dirB, h]

/-- Settles O23. -/
theorem applyReversalStopsAtOnce : Obligations.ApplyReversalStopsAtOnce := by
  intro s dir d duty hl hdir hle hd hD hs hne
  have hexec := exec_apply_accepted hl hdir hle
  have hstep := step_apply_accepted hl hdir hle
  rw [Pwm.applyIntake_reverse hd hD hs hne] at hexec hstep
  refine ⟨?_, fun hslice => ⟨_, hstep, ?_⟩⟩
  · rw [hexec, Pwm.reverse_eq, LastDir.ofDir_of_drive hs]
    rfl
  · have hpwm : (enginePhase s (s.setPwm (s.pwm.reverse d duty))).pwm =
        { s.pwm.reverse d duty with stopCnt := 1#23 } := Pwm.advance_reverse duty hne hslice
    have hstop : (enginePhase s (s.setPwm (s.pwm.reverse d duty))).pwm.actDir = .stop := by rw [hpwm]; rfl
    exact ⟨hstop, by rw [hpwm], State.lines_low_of_stop hstop⟩

theorem Pwm.stopIntake_actDir (p : Pwm) : p.stopIntake.actDir = .stop := by rw [Pwm.stopIntake_eq]

/-- Settles O24. -/
theorem rejectedApplyStopsTheDrive : Obligations.RejectedApplyStopsTheDrive := by
  intro s
  refine ⟨fun dir duty hl => exec_apply_unlocked hl dir duty, fun dir duty => exec_apply_illegal,
    fun w => commandPhase_apply_reservedBits s, s.pwm.stopIntake_actDir, by rw [Pwm.stopIntake_eq],
    fun hinv hl => ?_⟩
  have hpwm := (s.inv_iff.1 hinv).2.1
  obtain ⟨hs, hv⟩ := hpwm.unlocked hl
  rw [hpwm.stopIntake_of_stop hs, hpwm.clearPend_eq_self hv]

/-! ### The frame of APPLY -/

/-- STOP in STOP leaves `stop_cnt` and `last_dir`. -/
theorem Pwm.stopIntake_keeps_hold {p : Pwm} (h : p.actDir = .stop) :
    p.stopIntake.stopCnt = p.stopCnt ∧ p.stopIntake.lastDir = p.lastDir := by
  rw [Pwm.stopIntake_eq]
  exact ⟨if_pos h, if_pos h⟩

/-- `stop_cnt` and `last_dir` change only where the intake ends a drive. -/
theorem Pwm.applyIntake_keeps_hold {p : Pwm} (d : Dir) (duty : BitVec 7)
    (h : p.actDir = .stop ∨ (p.applyIntake d duty).actDir ≠ .stop) :
    (p.applyIntake d duty).stopCnt = p.stopCnt ∧ (p.applyIntake d duty).lastDir = p.lastDir := by
  obtain he | ⟨-, -, ⟨he, -⟩ | he | ⟨he, hs, -⟩⟩ := p.applyIntake_cases d duty <;> rw [he] at h ⊢
  · exact Pwm.stopIntake_keeps_hold (h.resolve_right (not_not_intro p.stopIntake_actDir))
  · exact ⟨rfl, rfl⟩
  · exact ⟨rfl, rfl⟩
  · exact absurd rfl (h.resolve_left hs)

/-- APPLY runs its intake, or records an error and stops the drive. -/
theorem exec_apply_cases {s t : State} {dir : DirField} {duty : BitVec 7} (h : exec (.apply dir duty) s = .next t) :
    (∃ c, t = (s.recordError c).setPwm s.pwm.stopIntake) ∨ ∃ d, t = s.setPwm (s.pwm.applyIntake d duty) := by
  simp only [exec, execApply] at h
  cases hc : applyCheck s dir duty with
  | error c => rw [hc] at h; cases h; exact .inl ⟨c, s.rejectApply_eq c⟩
  | ok d => rw [hc] at h; cases h; exact .inr ⟨d, rfl⟩

/-- Settles O31. -/
theorem applyFrame : Obligations.ApplyFrame := by
  intro s t dir duty h
  obtain ⟨c, rfl⟩ | ⟨d, rfl⟩ := exec_apply_cases h
  · refine ⟨by simp, by simp, by simp, by simp, .inr rfl, fun hend => ?_, fun off hstatus hpend => ?_⟩
    · exact Pwm.stopIntake_keeps_hold (hend.resolve_right (not_not_intro s.pwm.stopIntake_actDir))
    · exact readRegister_congr hstatus (by simp) (by simp) (by simp) (by simp) (fun ho => absurd ho hpend) (by simp)
  · refine ⟨rfl, rfl, rfl, rfl, .inl rfl, fun hend => Pwm.applyIntake_keeps_hold d duty hend,
      fun off hstatus hpend => ?_⟩
    exact readRegister_congr hstatus rfl (fun _ => ⟨rfl, rfl⟩) (fun _ => rfl) (fun _ => rfl)
      (fun ho => absurd ho hpend) (fun _ => rfl)

end Sys2Proof.Machine
end

section
namespace Sys2Proof.Machine

/-! ## The PWM engine in one cycle (41_pwm_generator.md R112, R114, R115, R120) -/

/-- The state after the command phase, by the two ways to reach it. -/
theorem State.postCommand_eq {s u : State}
    (h : (s.input.command = none ∧ u = s) ∨ ∃ w, s.input.command = some w ∧ commandPhase w s = .next u) :
    s.postCommand = u := by
  obtain ⟨hc, rfl⟩ | ⟨w, hc, hu⟩ := h
  · exact State.postCommand_none hc
  · exact State.postCommand_some hc hu

/-- The period boundary as R112 writes it. -/
theorem Pwm.advance_boundary_cases {c : Conf} {p : Pwm} (hs : p.actDir ≠ .stop)
    (ht : ¬p.tickCnt.toNat + 1 < c.cfgSlice.toNat) (hl : ¬p.sliceCnt < 99#7) :
    p.advance c =
      if p.pendValid then
        { p with
          tickCnt := 0, sliceCnt := 0, actDuty := p.pendDuty, pendValid := false, pendDir := .stop, pendDuty := 0 }
      else { p with tickCnt := 0, sliceCnt := 0 } := by
  rw [Pwm.advance_boundary hs ht hl]
  cases hv : p.pendValid <;> simp

/-- Settles O51. -/
theorem pwmAdvanceCases : Obligations.PwmAdvanceCases := by
  intro s u ha hu
  refine ⟨_, step_admitted ha, ?_⟩
  rw [State.postCommand_eq hu, enginePhase_pwm]
  refine ⟨fun hs hv hmay => Pwm.advance_starts hs ((Pwm.mayStart_iff _ _).2 ⟨hv, hmay⟩), fun hs hmay => ?_,
    fun hs ht => Pwm.advance_tick hs ht,
    fun hs ht hl => Pwm.advance_slice hs ht.not_gt (BitVec.lt_def.2 hl),
    fun hs ht hl => Pwm.advance_boundary_cases hs ht.not_gt fun h => hl.not_gt (BitVec.lt_def.1 h)⟩
  rw [Pwm.advance_holds hs (mt (Pwm.mayStart_iff _ _).1 hmay)]
  exact ⟨rfl, sat23_toNat _⟩

/-! ### STOP (R115) -/

/-- A stopped intake goes on in STOP, since it leaves nothing pending. -/
theorem Pwm.advance_stopIntake (c : Conf) (p : Pwm) :
    (p.stopIntake.advance c).actDir = .stop ∧ (p.stopIntake.advance c).pendValid = false := by
  have hv : p.stopIntake.pendValid = false := by rw [Pwm.stopIntake_eq]
  have hmay : ¬p.stopIntake.mayStart c = true := fun h => by simp [Pwm.mayStart_iff, hv] at h
  rw [Pwm.advance_holds p.stopIntake_actDir hmay]
  exact ⟨p.stopIntake_actDir, hv⟩

/-- A word of APPLY's opcode that passes its check is accepted with the direction and the duty of its fields. -/
theorem commandPhase_apply_of_checked {s : State} {w : Word} (hop : w.extractLsb' 28 4 = 0x7#4)
    (h : wordCheck s w = none) :
    ∃ d, direction (DirField.ofBits (field w 7 2)) = some d ∧
      commandPhase w s = .next (s.setPwm (s.pwm.applyIntake d (field w 0 7))) := by
  obtain ⟨i, hd, hc⟩ := decode_of_wordCheck_none h
  obtain ⟨-, he⟩ | ⟨op, hnum, ⟨-, hi⟩ | ⟨-, he⟩⟩ := decode_cases w
  · simp [he] at hd
  · obtain rfl := (opcodeField_eq_seven_iff hnum).1 hop
    obtain rfl : i = _ := by simpa [hi] using hd.symm
    cases ha : applyCheck s (DirField.ofBits (field w 7 2)) (field w 0 7) with
    | error c => simp [Opcode.instr, commandCheck, ha] at hc
    | ok d =>
      obtain ⟨hl, hdir, hle⟩ := applyCheck_ok ha
      exact ⟨d, hdir, (commandPhase_of_decode_ok s hi).trans (exec_apply_accepted hl hdir hle)⟩
  · simp [he] at hd

/-- APPLY STOP, APPLY of duty 0 and every rejected APPLY end their command phase with the intake of STOP. -/
theorem commandPhase_apply_stops {s : State} {w : Word} (hop : w.extractLsb' 28 4 = 0x7#4)
    (h : checkWord s w ≠ 0 ∨ w.extractLsb' 7 2 = 0#2 ∨ w.extractLsb' 0 7 = 0#7) :
    ∃ u, commandPhase w s = .next u ∧ u.pwm = s.pwm.stopIntake := by
  cases hc : wordCheck s w with
  | some c =>
    refine ⟨_, commandPhase_of_wordCheck_some hc, ?_⟩
    rw [if_pos hop, State.rejectApply_eq_stopped]
  | none =>
    obtain ⟨d, hdir, hu⟩ := commandPhase_apply_of_checked hop hc
    refine ⟨_, hu, Pwm.applyIntake_stop ?_⟩
    refine (h.resolve_left (not_not_intro ((wordCheck_eq_none_iff s w).1 hc))).imp_left fun h0 => ?_
    rw [field, h0] at hdir
    cases hdir
    rfl

/-- Settles O52. -/
theorem stopLatencyIsOneCycle : Obligations.StopLatencyIsOneCycle := by
  refine ⟨fun s w hop h => ?_, fun u => State.lines_low_of_stop⟩
  obtain ⟨u, hu, hpwm⟩ := commandPhase_apply_stops hop h
  obtain ⟨hs, hv⟩ := Pwm.advance_stopIntake u.conf s.pwm
  rw [← hpwm] at hs hv
  exact ⟨_, step_presentWord hu, hs, hv, State.lines_low_of_stop hs⟩

/-! ### The enabled line (R113, R114) -/

/-- The enabled line is high in the slices below the duty. -/
theorem State.enabledLine_iff {s : State} (hs : s.pwm.actDir ≠ .stop) :
    s.enabledLine = true ↔ s.pwm.sliceCnt.toNat < s.pwm.actDuty.toNat := by
  cases hd : s.pwm.actDir with
  | stop => exact absurd hd hs
  | fwd => simp [State.enabledLine, hd, State.dirB_iff]
  | bwd => simp [State.enabledLine, hd, State.dirA_iff]

/-- At duty 100 there is no slice in which the enabled line is low. -/
theorem State.Inv.enabledLine_of_full {s : State} (h : s.Inv) (hD : s.pwm.actDuty = 100#7) : s.enabledLine = true := by
  obtain ⟨hstop, -, hslice⟩ := h.dutyOk
  rw [State.enabledLine_iff (mt hstop.1 (by rw [hD]; decide)), hD]
  exact Nat.lt_succ_of_le hslice

/-- Settles O39. -/
theorem fullDutyNeverToggles : Obligations.FullDutyNeverToggles := fun s h hD =>
  ⟨h.enabledLine_of_full hD, fun t hstep _ hD' => (invariantIsKeptByEveryStep s t h hstep).enabledLine_of_full hD'⟩

/-! ### The engines do not interact (R120) -/

/-- What two checked commands of one check leave of a view of the state that an error record does not show. -/
theorem checked_congr {α : Type} {code code' : Option ErrCode} {s s' a a' t t' : State} (view : State → α)
    (hcode : code = code') (hrec : ∀ c, view (s.recordError c) = view (s'.recordError c)) (ha : view a = view a')
    (h : checked code s a = .next t) (h' : checked code' s' a' = .next t') : view t = view t' := by
  subst hcode
  cases code <;> cases h <;> cases h'
  · exact ha
  · exact hrec _

/-- What PwmAdvance sees of a state. -/
def State.pwmView (s : State) : Conf × Pwm := (s.conf, s.pwm)

theorem State.recordError_pwmView (s : State) (c : ErrCode) : (s.recordError c).pwmView = s.pwmView := by
  simp [State.pwmView]

/-- A command's effect on configuration and PWM generator depends on those alone. -/
theorem exec_pwmView {i : Instr} {s s' t t' : State} (hv : s.pwmView = s'.pwmView) (h : exec i s = .next t)
    (h' : exec i s' = .next t') : t.pwmView = t'.pwmView := by
  obtain ⟨hconf, hpwm⟩ := Prod.mk.inj hv
  have hrec (c : ErrCode) : (s.recordError c).pwmView = (s'.recordError c).pwmView := by
    rw [s.recordError_pwmView, s'.recordError_pwmView, hv]
  have hcfg (legal : Bool) : configCheck s legal = configCheck s' legal := by rw [configCheck, hconf, configCheck]
  have hlock : lockCheck s = lockCheck s' := by rw [lockCheck, hconf, lockCheck]
  cases i with
  | nop | clear => cases h; cases h'; exact hv
  | cfgExtra _ | cfgTimeout _ | cfgSck _ | cfgPwm _ =>
    exact checked_congr State.pwmView (hcfg _) hrec (by simp [State.pwmView, hconf, hpwm]) h h'
  | lock => exact checked_congr State.pwmView hlock hrec (by simp [State.pwmView, hconf, hpwm]) h h'
  | read =>
    have hkeep {s t : State} (h : exec .read s = .next t) : t.pwmView = s.pwmView := by
      obtain ⟨c, rfl⟩ | rfl := checked_cases h
      · exact s.recordError_pwmView c
      · rfl
    rw [hkeep h, hkeep h', hv]
  | apply dir duty =>
    have hcheck : applyCheck s dir duty = applyCheck s' dir duty := by rw [applyCheck, hconf, applyCheck]
    simp only [exec, execApply, hcheck] at h h'
    cases hc : applyCheck s' dir duty <;> rw [hc] at h h' <;> cases h <;> cases h' <;>
      simp [State.pwmView, State.rejectApply_eq, hconf, hpwm]

theorem rejectWord_pwmView {s s' : State} (e : DecodeError) (hv : s.pwmView = s'.pwmView) :
    (rejectWord e s).pwmView = (rejectWord e s').pwmView := by
  obtain ⟨hconf, hpwm⟩ := Prod.mk.inj hv
  cases e with
  | reservedOpcode => simp [rejectWord, State.recordError_pwmView, hv]
  | reservedBits op =>
    by_cases ho : op = .apply <;> simp [rejectWord, ho, State.rejectApply_eq, State.pwmView, hconf, hpwm]

/-- A command phase's effect on configuration and PWM generator depends on those and the command alone. -/
theorem State.postCommand_pwmView {s s' : State} (hv : s.pwmView = s'.pwmView)
    (hc : s.input.command = s'.input.command) : s.postCommand.pwmView = s'.postCommand.pwmView := by
  obtain ⟨hn, hp⟩ | ⟨w, hw, hp⟩ := s.postCommand_cases
  · rw [hp, State.postCommand_none (hc ▸ hn), hv]
  · obtain ⟨u, hu⟩ := commandPhase_next w s'
    rw [State.postCommand_some (hc ▸ hw) hu]
    cases hd : decode w with
    | ok i =>
      rw [commandPhase_of_decode_ok _ hd] at hp hu
      exact exec_pwmView hv hp hu
    | error e =>
      rw [commandPhase_of_decode_error _ hd] at hp hu
      cases hu
      rw [← Host.Outcome.next.inj hp]
      exact rejectWord_pwmView e hv

/-- An IDLE deserializer's fields after the command phase depend on those fields, the configuration and the command. -/
theorem State.postCommand_deser_congr {s s' : State} (hd : s.deser = s'.deser) (hconf : s.conf = s'.conf)
    (hc : s.input.command = s'.input.command) (hi : s.deser.rdState = .idle) :
    s.postCommand.deser = s'.postCommand.deser := by
  by_cases h : s.input.command = some 0x60000000#32 ∧ s.conf.locked = true
  · rw [State.postCommand_read h.1 h.2 hi, State.postCommand_read (hc ▸ h.1) (hconf ▸ h.2) (hd ▸ hi),
      State.setDeser_deser, State.setDeser_deser, hd]
  · rw [State.postCommand_deser h, State.postCommand_deser (hconf ▸ hc ▸ h), hd]

/-- Settles O57. -/
theorem enginesDoNotInteract : Obligations.EnginesDoNotInteract := by
  intro s s' t t' hconf ⟨hrst, hwr, hrd, haddr, hdata⟩ h h'
  have hc : s.input.command = s'.input.command := by simp only [Input.command, hwr, haddr, hdata]
  obtain ⟨hr, rfl⟩ | ⟨⟨hr, -⟩, rfl⟩ := step_cases h <;> obtain ⟨hr', rfl⟩ | ⟨⟨hr', -⟩, rfl⟩ := step_cases h'
  · exact ⟨fun _ => rfl, fun _ _ => rfl⟩
  · simp [hr, hr'] at hrst
  · simp [hr, hr'] at hrst
  · refine ⟨fun hp => ?_, fun hd hdout => ?_⟩
    · obtain ⟨hconf', hpwm'⟩ := Prod.mk.inj (State.postCommand_pwmView (Prod.ext hconf hp) hc)
      rw [enginePhase_pwm, enginePhase_pwm, hconf', hpwm']
    · by_cases hi : s.deser.rdState = .idle
      · rw [enginePhase_deser_idle _ hi, enginePhase_deser_idle _ (hd ▸ hi)]
        exact State.postCommand_deser_congr hd hconf hc hi
      · rw [enginePhase_deser_busy _ hi, enginePhase_deser_busy _ (hd ▸ hi), hd, hconf, hdout]

end Sys2Proof.Machine
end

section
namespace Sys2Proof.Machine

/-! ## What a step does to a drive (41_pwm_generator.md R102, R112) -/

/-- Everything a command phase does to the PWM generator. -/
theorem Effect.pwm_cases {s u : State} (h : Effect s u) :
    u.pwm = s.pwm ∨ u.pwm = s.pwm.clearPend ∨ (∃ d duty, u.pwm = s.pwm.setPend d duty) ∨
      u.pwm = s.pwm.stopIntake ∨
        ∃ d duty, u.pwm = s.pwm.reverse d duty ∧ s.pwm.actDir ≠ .stop ∧ d ≠ s.pwm.actDir := by
  cases h with
  | applied d duty hl hle =>
    obtain he | ⟨-, -, ⟨he, -⟩ | he | ⟨he, hs, hne⟩⟩ := s.pwm.applyIntake_cases d duty
    · exact .inr (.inr (.inr (.inl he)))
    · exact .inr (.inr (.inl ⟨d, duty, he⟩))
    · exact .inr (.inl he)
    · exact .inr (.inr (.inr (.inr ⟨d, duty, he, hs, hne⟩)))
  | rejectedApply c hc => exact .inr (.inr (.inr (.inl rfl)))
  | _ => exact .inl (by simp)

/-- A command phase that leaves a drive running leaves its duty and its counters. -/
theorem Effect.drive_keeps {s u : State} (h : Effect s u) (hs : u.pwm.actDir ≠ .stop) :
    u.pwm.actDir = s.pwm.actDir ∧ u.pwm.actDuty = s.pwm.actDuty ∧ u.pwm.sliceCnt = s.pwm.sliceCnt ∧
      u.pwm.tickCnt = s.pwm.tickCnt := by
  obtain he | he | ⟨d, duty, he⟩ | he | ⟨d, duty, he, -⟩ := h.pwm_cases <;> rw [he] at hs ⊢
  · exact ⟨rfl, rfl, rfl, rfl⟩
  · exact ⟨rfl, rfl, rfl, rfl⟩
  · exact ⟨rfl, rfl, rfl, rfl⟩
  · exact absurd s.pwm.stopIntake_actDir hs
  · exact absurd rfl hs

/-- A drive that goes on through the engine phase was not taken off by the command phase: a pending drive that takes its
place has the other direction. -/
theorem Effect.drive_of_advance {s u : State} (h : Effect s u) (hs : s.pwm.actDir ≠ .stop)
    (ht : (u.pwm.advance u.conf).actDir = s.pwm.actDir) : u.pwm.actDir ≠ .stop := by
  intro hu
  obtain he | he | ⟨d, duty, he⟩ | he | ⟨d, duty, he, -, hne⟩ := h.pwm_cases <;> rw [he] at hu ht
  · exact hs hu
  · exact hs hu
  · exact hs hu
  · exact hs (ht.symm.trans (Pwm.advance_stopIntake u.conf s.pwm).1)
  · by_cases hm : (s.pwm.reverse d duty).mayStart u.conf = true
    · rw [Pwm.advance_starts rfl hm] at ht
      exact hne ht
    · rw [Pwm.advance_holds rfl hm] at ht
      exact hs ht.symm

/-! ## The duty fraction (R113) -/

/-- The cycles of the current period that are over. -/
def Pwm.position (c : Conf) (p : Pwm) : Nat := p.sliceCnt.toNat * c.cfgSlice.toNat + p.tickCnt.toNat

/-- Before the period boundary an advance goes on by one cycle, at the same duty. -/
theorem Pwm.Inv.advance_position {c : Conf} {p : Pwm} (h : p.Inv c) (hs : p.actDir ≠ .stop)
    (hp : p.position c + 1 < c.period) :
    (p.advance c).position c = p.position c + 1 ∧ (p.advance c).actDuty = p.actDuty := by
  have htick := h.tick_lt hs
  have hbound := c.cfgSlice.isLt
  by_cases ht : p.tickCnt.toNat + 1 < c.cfgSlice.toNat
  · have hsucc : (p.tickCnt + 1).toNat = p.tickCnt.toNat + 1 := by bv_omega
    rw [Pwm.advance_tick hs ht, Pwm.position, hsucc]
    exact ⟨rfl, rfl⟩
  · have hlast : p.tickCnt.toNat + 1 = c.cfgSlice.toNat := by omega
    by_cases hl : p.sliceCnt < 99#7
    · have hsucc : (p.sliceCnt + 1).toNat = p.sliceCnt.toNat + 1 := by bv_omega
      rw [Pwm.advance_slice hs ht hl, Pwm.position, hsucc, Nat.succ_mul, ← hlast]
      exact ⟨by rw [Pwm.position, ← hlast]; rfl, rfl⟩
    · have h99 : p.sliceCnt.toNat = 99 := Nat.le_antisymm h.slice_le (not_lt.1 fun hlt => hl (BitVec.lt_def.2 hlt))
      rw [Pwm.position, Conf.period, h99] at hp
      omega

/-- The slices below the duty are the first `duty × cfg_slice` cycles of the period. -/
theorem Pwm.Inv.slice_lt_duty_iff {c : Conf} {p : Pwm} (h : p.Inv c) (hs : p.actDir ≠ .stop) :
    p.sliceCnt.toNat < p.actDuty.toNat ↔ p.position c < p.actDuty.toNat * c.cfgSlice.toNat := by
  have htick := h.tick_lt hs
  rw [Pwm.position, ← Nat.div_lt_iff_lt_mul (by omega), Nat.mul_comm, Nat.mul_add_div (by omega),
    Nat.div_eq_of_lt htick, Nat.add_zero]

/-- A step inside a period that does not end the drive goes on by one cycle, at the same duty. -/
theorem step_position {s t : State} (hinv : s.Inv) (hs : s.pwm.actDir ≠ .stop) (h : step s = .next t)
    (ht : t.pwm.actDir = s.pwm.actDir) (hp : s.pwm.position s.conf + 1 < s.conf.period) :
    t.conf = s.conf ∧ t.pwm.actDuty = s.pwm.actDuty ∧ t.pwm.position s.conf = s.pwm.position s.conf + 1 := by
  obtain ⟨-, rfl⟩ | ⟨-, rfl⟩ := step_cases h
  · exact absurd ht.symm hs
  · have he := s.postCommand_effect
    have hconf : s.postCommand.conf = s.conf :=
      he.conf_of_locked ((s.inv_iff.1 hinv).2.1.locked_of_drive hs)
    have hu := he.drive_of_advance hs ht
    obtain ⟨-, hduty, hslice, htick⟩ := he.drive_keeps hu
    have hpos : s.postCommand.pwm.position s.conf = s.pwm.position s.conf := by
      rw [Pwm.position, hslice, htick, Pwm.position]
    have hpwm := (s.postCommand.inv_iff.1 (he.inv hinv)).2.1
    rw [hconf] at hpwm
    obtain ⟨hpos', hduty'⟩ := hpwm.advance_position hu (hpos ▸ hp)
    rw [enginePhase_pwm, enginePhase_conf, hconf]
    exact ⟨rfl, hduty'.trans hduty, hpos'.trans (by rw [hpos])⟩

/-- Two states of a run one cycle apart are a step apart. -/
theorem step_of_after {s u t : State} {k : Nat} (hu : s.after k = some u) (ht : s.after (k + 1) = some t) :
    step u = .next t := by
  rw [after_snoc, hu, Option.bind_some] at ht
  split at ht
  · cases ht; assumption
  · cases ht

/-- `k` cycles into a period in which the drive goes on. -/
theorem after_position {s : State} (hinv : s.Inv) (hs : s.pwm.actDir ≠ .stop) (h0 : s.pwm.position s.conf = 0)
    (hdrive : ∀ k, k < s.conf.period → ∃ u, s.after k = some u ∧ u.pwm.actDir = s.pwm.actDir) {k : Nat}
    (hk : k < s.conf.period) :
    ∃ u, s.after k = some u ∧ u.pwm.actDir = s.pwm.actDir ∧ u.conf = s.conf ∧ u.pwm.actDuty = s.pwm.actDuty ∧
      u.pwm.position s.conf = k := by
  induction k with
  | zero => exact ⟨s, rfl, rfl, rfl, rfl, h0⟩
  | succ k ih =>
    obtain ⟨u, hu, hdir, hconf, hduty, hpos⟩ := ih (by omega)
    obtain ⟨t, ht, htdir⟩ := hdrive (k + 1) hk
    obtain ⟨hconf', hduty', hpos'⟩ := step_position (after_inv hinv hu) (hdir ▸ hs) (step_of_after hu ht)
      (htdir.trans hdir.symm) (by rw [hconf, hpos]; exact hk)
    rw [hconf] at hconf' hpos'
    exact ⟨t, ht, htdir, hconf', hduty'.trans hduty, hpos'.trans (by rw [hpos])⟩

theorem length_filter_lt_range {m n : Nat} (h : m ≤ n) : ((List.range n).filter (· < m)).length = m := by
  obtain ⟨r, rfl⟩ := Nat.exists_eq_add_of_le h
  have hlow : (List.range m).filter (· < m) = List.range m := List.filter_eq_self.2 (by simp)
  have hhigh : ((List.range r).map (m + ·)).filter (· < m) = [] := List.filter_eq_nil_iff.2 (by simp)
  rw [List.range_add, List.filter_append, hlow, hhigh, List.append_nil, List.length_range]

/-- Settles O53: the line is high in the first `act_duty × cfg_slice` cycles of the period. -/
theorem dutyFractionIsExact : Obligations.DutyFractionIsExact := by
  intro s hinv hs hslice htick hdrive
  have h0 : s.pwm.position s.conf = 0 := by simp [Pwm.position, hslice, htick]
  have hrun {k : Nat} (hk : k < s.conf.period) := after_position hinv hs h0 hdrive hk
  refine ⟨?_, fun k u hk hu => ?_⟩
  · have hline : ∀ k ∈ List.range s.conf.period,
        s.lineHighAt k = decide (k < s.pwm.actDuty.toNat * s.conf.cfgSlice.toNat) := fun k hk => by
      obtain ⟨u, hu, hdir, hconf, hduty, hpos⟩ := hrun (List.mem_range.1 hk)
      have hpwm := (u.inv_iff.1 (after_inv hinv hu)).2.1
      rw [hconf] at hpwm
      simp only [State.lineHighAt, hu]
      rw [Bool.eq_iff_iff, State.enabledLine_iff (hdir ▸ hs), hpwm.slice_lt_duty_iff (hdir ▸ hs), hpos, hduty,
        decide_eq_true_iff]
    rw [List.filter_congr hline]
    exact length_filter_lt_range (Nat.mul_le_mul_right _ hinv.dutyOk.2.1)
  · obtain ⟨v, hv, -, -, hduty, -⟩ := hrun hk
    cases hu.symm.trans hv
    exact hduty

end Sys2Proof.Machine
end

section
namespace Sys2Proof.Machine

/-! ## The stop hold, backwards (41_pwm_generator.md R116, R117)

`stop_cnt` never counts more than the STOP states just passed, and only a hold that has elapsed lets a drive start in a
direction other than the last. So a drive in a new direction looks back on PERIOD STOP states. -/

/-- The STOP states the generator has counted up to now. -/
def Pwm.held (p : Pwm) : Nat := if p.actDir = .stop then p.stopCnt.toNat else 0

theorem Pwm.held_of_stop {p : Pwm} (h : p.actDir = .stop) : p.held = p.stopCnt.toNat := if_pos h

theorem Pwm.held_of_drive {p : Pwm} (h : p.actDir ≠ .stop) : p.held = 0 := if_neg h

theorem Pwm.held_le (p : Pwm) : p.held ≤ p.stopCnt.toNat := by
  rw [Pwm.held]
  split <;> omega

theorem Pwm.stop_of_held_pos {p : Pwm} (h : 0 < p.held) : p.actDir = .stop :=
  by_contra fun hs => h.ne' (Pwm.held_of_drive hs)

/-- An advance counts at most one STOP state more. -/
theorem Pwm.held_advance_le (c : Conf) (p : Pwm) : (p.advance c).held ≤ p.held + 1 := by
  by_cases hs : p.actDir = .stop
  · rw [Pwm.held_of_stop hs]
    by_cases hm : p.mayStart c = true
    · rw [Pwm.advance_starts hs hm]
      exact (Pwm.held_le _).trans (Nat.le_succ _)
    · rw [Pwm.advance_holds hs hm]
      exact (Pwm.held_le _).trans ((sat23_toNat _).trans_le (min_le_left _ _))
  · rw [Pwm.held_of_drive ((Pwm.advance_drive_keeps hs).1 ▸ hs)]
    exact Nat.zero_le _

/-- A command counts no STOP state, and a drive's end starts the count again. -/
theorem Effect.held_le {s u : State} (h : Effect s u) : u.pwm.held ≤ s.pwm.held := by
  obtain he | he | ⟨d, duty, he⟩ | he | ⟨d, duty, he, -⟩ := h.pwm_cases <;> rw [he]
  · exact le_rfl
  · exact le_rfl
  · by_cases hs : s.pwm.actDir = .stop
    · rw [Pwm.held_of_stop s.pwm.stopIntake_actDir, (Pwm.stopIntake_keeps_hold hs).1, Pwm.held_of_stop hs]
    · have hcnt : s.pwm.stopIntake.stopCnt = 0 := by rw [Pwm.stopIntake_eq]; exact if_neg hs
      exact (Pwm.held_le _).trans (by rw [hcnt]; exact Nat.zero_le _)
  · exact Nat.zero_le _

/-- No command changes the last direction driven: a drive that ends has it already (10_state.md R30). -/
theorem Effect.lastDir {s u : State} (h : Effect s u) (hinv : s.Inv) : u.pwm.lastDir = s.pwm.lastDir := by
  have hdrive (hs : s.pwm.actDir ≠ .stop) := (hinv.driveOk hs).1
  obtain he | he | ⟨d, duty, he⟩ | he | ⟨d, duty, he, hs, -⟩ := h.pwm_cases <;> rw [he]
  · rfl
  · rfl
  · by_cases hs : s.pwm.actDir = .stop
    · exact (Pwm.stopIntake_keeps_hold hs).2
    · rw [Pwm.stopIntake_eq, hdrive hs]
      exact if_neg hs
  · exact (hdrive hs).symm

/-- An advance changes the last direction only by a start after the hold. -/
theorem Pwm.Inv.advance_lastDir {c : Conf} {p : Pwm} (h : p.Inv c) :
    (p.advance c).lastDir = p.lastDir ∨ (c.locked = true ∧ c.period ≤ p.held) := by
  by_cases hs : p.actDir = .stop
  · by_cases hm : p.mayStart c = true
    · obtain ⟨hv, hlast | hheld⟩ := (Pwm.mayStart_iff c p).1 hm
      · rw [Pwm.advance_starts hs hm]
        exact .inl hlast
      · exact .inr ⟨h.locked_of_pend hv, (Pwm.held_of_stop hs).symm ▸ hheld⟩
    · rw [Pwm.advance_holds hs hm]
      exact .inl rfl
  · exact .inl (Pwm.advance_drive_keeps hs).2.1

/-- Everything a step does to the last direction: reset forgets it, a start after the hold changes it, and every other
step keeps it, and a locked configuration. -/
theorem step_lastDir {s t : State} (hinv : s.Inv) (h : step s = .next t) :
    t.pwm.lastDir = .unknown ∨ (t.pwm.lastDir = s.pwm.lastDir ∧ (s.conf.locked = true → t.conf = s.conf)) ∨
      (t.conf.locked = true ∧ t.conf.period ≤ s.pwm.held) := by
  obtain ⟨-, rfl⟩ | ⟨-, rfl⟩ := step_cases h
  · exact .inl rfl
  · have he := s.postCommand_effect
    have hpwm := (s.postCommand.inv_iff.1 (he.inv hinv)).2.1
    obtain hlast | ⟨hl, hheld⟩ := hpwm.advance_lastDir
    · exact .inr (.inl ⟨hlast.trans (he.lastDir hinv), he.conf_of_locked⟩)
    · exact .inr (.inr ⟨hl, hheld.trans he.held_le⟩)

/-- A step counts at most one STOP state more. -/
theorem step_held_le {s t : State} (h : step s = .next t) : t.pwm.held ≤ s.pwm.held + 1 := by
  obtain ⟨-, rfl⟩ | ⟨-, rfl⟩ := step_cases h
  · exact Nat.zero_le _
  · exact (Pwm.held_advance_le _ _).trans (Nat.succ_le_succ s.postCommand_effect.held_le)

/-- The state `k` cycles later is in STOP. -/
def State.StoppedAt (s : State) (k : Nat) : Prop := ∃ u, s.after k = some u ∧ u.pwm.actDir = .stop

/-- Between the states of cycles 1 and `k` there are `n` consecutive STOP states. -/
def State.StoppedFor (s : State) (n k : Nat) : Prop :=
  ∃ a, 0 < a ∧ a + n ≤ k ∧ ∀ i, a ≤ i → i < a + n → s.StoppedAt i

theorem State.StoppedFor.succ {s : State} {n k : Nat} (h : s.StoppedFor n k) : s.StoppedFor n (k + 1) := by
  obtain ⟨a, ha, hle, hstop⟩ := h
  exact ⟨a, ha, hle.trans k.le_succ, hstop⟩

/-- What the state `u` of cycle `k` tells of the run from `s` that led to it: the STOP states counted were passed, and
the last direction is that of `s`, or forgotten, or a whole hold was passed. -/
structure HoldHistory (s : State) (k : Nat) (u : State) : Prop where
  held_le : u.pwm.held ≤ k
  counted : ∀ i, i ≤ k → k < i + u.pwm.held → s.StoppedAt i
  lastDir : u.pwm.lastDir = s.pwm.lastDir ∨ u.pwm.lastDir = .unknown ∨
    (u.conf.locked = true ∧ s.StoppedFor u.conf.period k)

theorem HoldHistory.start {s : State} (h : s.pwm.held = 0) : HoldHistory s 0 s where
  held_le := h.le
  counted := by omega
  lastDir := .inl rfl

/-- A hold that has elapsed lies behind. -/
theorem HoldHistory.stoppedFor {s u : State} {k n : Nat} (h : HoldHistory s k u) (hn : n ≤ u.pwm.held) :
    s.StoppedFor n (k + 1) := by
  have hle := h.held_le
  exact ⟨k + 1 - n, by omega, by omega, fun i hi hi' => h.counted i (by omega) (by omega)⟩

theorem HoldHistory.step {s u t : State} {k : Nat} (h : HoldHistory s k u) (hinv : u.Inv) (hu : s.after k = some u)
    (ht : s.after (k + 1) = some t) : HoldHistory s (k + 1) t := by
  have hstep := step_of_after hu ht
  have hheld := step_held_le hstep
  have hle := h.held_le
  refine ⟨by omega, fun i hi hi' => ?_, ?_⟩
  · by_cases hlast : i = k + 1
    · subst hlast
      exact ⟨t, ht, Pwm.stop_of_held_pos (by omega)⟩
    · exact h.counted i (by omega) (by omega)
  · obtain hunknown | ⟨hsame, hconf⟩ | ⟨hl, hperiod⟩ := step_lastDir hinv hstep
    · exact .inr (.inl hunknown)
    · rw [hsame]
      refine h.lastDir.imp_right (Or.imp_right fun ⟨hl, hstop⟩ => ?_)
      rw [hconf hl]
      exact ⟨hl, hstop.succ⟩
    · exact .inr (.inr ⟨hl, h.stoppedFor hperiod⟩)

theorem after_holdHistory {s t : State} {k : Nat} (hinv : s.Inv) (h0 : s.pwm.held = 0) (h : s.after k = some t) :
    HoldHistory s k t := by
  induction k generalizing t with
  | zero => cases h; exact .start h0
  | succ k ih =>
    obtain ⟨u, hu, -⟩ := Option.bind_eq_some_iff.1 ((after_snoc s k).symm.trans h)
    exact (ih hu).step (after_inv hinv hu) hu h

/-- A drive in a direction other than the last one of the run's start has a whole hold behind it. -/
theorem stoppedFor_of_new_direction {s t : State} {k : Nat} (hinv : s.Inv) (h0 : s.pwm.held = 0)
    (h : s.after k = some t) (ht : t.pwm.actDir ≠ .stop) (hne : LastDir.ofDir t.pwm.actDir ≠ s.pwm.lastDir) :
    s.StoppedFor t.conf.period k := by
  have hlast : t.pwm.lastDir = LastDir.ofDir t.pwm.actDir := ((after_inv hinv h).driveOk ht).1
  obtain hs | hunknown | ⟨-, hstop⟩ := (after_holdHistory hinv h0 h).lastDir
  · exact absurd (hlast.symm.trans hs) hne
  · exact absurd ((LastDir.ofDir_inj _ .stop).1 (hlast.symm.trans hunknown)) ht
  · exact hstop

/-- Settles O54. -/
theorem directionChangePassesThroughStop : Obligations.DirectionChangePassesThroughStop := by
  intro s t j hinv hj hs ht hne
  refine stoppedFor_of_new_direction hinv (Pwm.held_of_drive hs) hj ht ?_
  rw [(hinv.driveOk hs).1]
  exact fun h => hne ((LastDir.ofDir_inj _ _).1 h).symm

/-- Settles O56: after reset the last direction is unknown, so every direction is new. -/
theorem firstDriveAfterResetWaitsOnePeriod : Obligations.FirstDriveAfterResetWaitsOnePeriod := by
  intro l c k t hk ht
  obtain ⟨a, ha, hle, -⟩ := stoppedFor_of_new_direction (State.inv_reset l c) rfl hk ht
    (fun h => ht ((LastDir.ofDir_inj _ .stop).1 h))
  omega

/-! ## The stop hold, forwards (R119) -/

/-- In STOP the drive command `d, duty` is pending with `n` cycles left until it may start: none in the last direction,
the rest of the hold in another. -/
structure State.Waits (s : State) (d : Dir) (duty : BitVec 7) (n : Nat) : Prop where
  stop : s.pwm.actDir = .stop
  pendValid : s.pwm.pendValid = true
  pendDir : s.pwm.pendDir = d
  pendDuty : s.pwm.pendDuty = duty
  rest : n = if LastDir.ofDir d = s.pwm.lastDir then 0 else s.conf.period - s.pwm.stopCnt.toNat

section
variable {u : State} {d : Dir} {duty : BitVec 7}

theorem State.Waits.mayStart_iff {n : Nat} (h : u.Waits d duty n) : u.pwm.mayStart u.conf = true ↔ n = 0 := by
  rw [Pwm.mayStart_iff, h.pendDir, and_iff_right h.pendValid, h.rest, ite_eq_left_iff, Nat.sub_eq_zero_iff_le,
    or_iff_not_imp_left]

/-- A cycle of the hold, counted without saturation. -/
theorem State.Waits.enginePhase {n : Nat} (h : u.Waits d duty (n + 1)) (s : State) :
    (enginePhase s u).Waits d duty n := by
  have hpwm := Pwm.advance_holds h.stop (mt h.mayStart_iff.1 n.succ_ne_zero)
  have hne : LastDir.ofDir d ≠ u.pwm.lastDir := fun he => by simpa [he] using h.rest
  have hrest := h.rest
  rw [if_neg hne] at hrest
  have hle := u.conf.period_le
  constructor <;> rw [enginePhase_pwm, hpwm]
  · exact h.stop
  · exact h.pendValid
  · exact h.pendDir
  · exact h.pendDuty
  · rw [if_neg hne, sat23_toNat, enginePhase_conf]
    omega

/-- The cycle in which the drive may start. -/
theorem State.Waits.starts (h : u.Waits d duty 0) (s : State) :
    (Machine.enginePhase s u).pwm.actDir = d ∧ (Machine.enginePhase s u).pwm.actDuty = duty := by
  rw [enginePhase_pwm, Pwm.advance_starts h.stop (h.mayStart_iff.2 rfl)]
  exact ⟨h.pendDir, h.pendDuty⟩

end

/-- A drive that waits after this cycle's command phase, and that nothing follows, starts after exactly the cycles
left. -/
theorem stops_then_drives {s : State} {d : Dir} {duty : BitVec 7} {n : Nat} (h : s.postCommand.Waits d duty n)
    (hu : s.Undisturbed (n + 1)) (hno : s.NoCommand 1 (n + 1)) :
    (∀ k, 1 ≤ k → k ≤ n → s.StoppedAt k) ∧
      ∃ u, s.after (n + 1) = some u ∧ u.pwm.actDir = d ∧ u.pwm.actDuty = duty := by
  have hstep := step_admitted (inputAt_zero s ▸ hu 0 n.succ_pos)
  induction n generalizing s with
  | zero => exact ⟨by omega, _, after_succ hstep 0, h.starts s⟩
  | succ n ih =>
    have hwaits := h.enginePhase s
    generalize enginePhase s s.postCommand = t at hstep hwaits
    have hinput (k : Nat) : t.inputAt k = s.inputAt (k + 1) := inputAt_step hstep k
    have hnone : t.input.command = none := by
      rw [← inputAt_zero, hinput]
      exact hno 1 le_rfl (by omega)
    have hut : t.Undisturbed (n + 1) := fun k hk => hinput k ▸ hu (k + 1) (by omega)
    obtain ⟨hstop, hdrive⟩ := ih ((State.postCommand_none hnone).symm ▸ hwaits) hut
      (fun k hk hk' => hinput k ▸ hno (k + 1) (by omega) (by omega))
      (step_admitted (inputAt_zero t ▸ hut 0 n.succ_pos))
    refine ⟨fun k hk hk' => ?_, by rw [after_succ hstep]; exact hdrive⟩
    obtain ⟨j, rfl⟩ := Nat.exists_eq_add_of_le' hk
    rw [State.StoppedAt, after_succ hstep]
    obtain rfl | hj := j.eq_zero_or_pos
    · exact ⟨t, rfl, hwaits.stop⟩
    · exact hstop j hj (by omega)

/-- The command phase of a cycle whose input is the word of an accepted APPLY. -/
theorem State.postCommand_apply {s : State} {dir : DirField} {d : Dir} {duty : BitVec 7}
    (hc : s.input.command = some (encode (.apply dir duty))) (hl : s.conf.locked = true)
    (hdir : direction dir = some d) (hle : duty.toNat ≤ 100) :
    s.postCommand = s.setPwm (s.pwm.applyIntake d duty) :=
  State.postCommand_some hc (commandPhase_apply_accepted hl hdir hle)

/-- Settles O55: a reversal waits for a whole hold. -/
theorem reversalTakesExactlyOnePeriod : Obligations.ReversalTakesExactlyOnePeriod := by
  intro s dir d duty hinv hs hdir hd hne hD hle hc hu hno
  have hl := (s.inv_iff.1 hinv).2.1.locked_of_drive hs
  have hpost := State.postCommand_apply hc hl hdir hle
  rw [Pwm.applyIntake_reverse hd hD hs hne] at hpost
  refine stops_then_drives ?_ hu hno
  rw [hpost]
  exact ⟨rfl, rfl, rfl, rfl, (if_neg (mt (LastDir.ofDir_inj _ _).1 hne)).symm⟩

/-- Settles O60. -/
theorem startFromStopTakesTheRestOfTheHold : Obligations.StartFromStopTakesTheRestOfTheHold := by
  intro s dir d duty m hinv hl hs hdir hd hD hle hc hm hu hno
  have hpost := State.postCommand_apply hc hl hdir hle
  rw [Pwm.applyIntake_start hd hD hs] at hpost
  have hwaits : s.postCommand.Waits d duty m := by rw [hpost]; exact ⟨hs, rfl, rfl, rfl, hm⟩
  obtain ⟨hstop, hdrive⟩ := stops_then_drives hwaits hu hno
  refine ⟨fun k hk => ?_, hdrive⟩
  obtain rfl | hpos := k.eq_zero_or_pos
  · exact ⟨s, rfl, hs⟩
  · exact hstop k hpos hk

end Sys2Proof.Machine
end

section
namespace Sys2Proof.Machine

/-! ## The configuration lifecycle (42_control.md R125, 41_pwm_generator.md R111) -/

/-- Settles O58: a step without reset is a command's effect followed by the engine phase, which writes no
configuration. -/
theorem lockedConfigurationIsFrozen : Obligations.LockedConfigurationIsFrozen := by
  intro s t h hr hl
  obtain ⟨hrst, -⟩ | ⟨-, rfl⟩ := step_cases h
  · simp [hr] at hrst
  · exact s.postCommand_effect.conf_of_locked hl

/-! ## NOP (42_control.md R122) -/

/-- NOP's word leaves the state as it is. -/
theorem commandPhase_nop (s : State) : commandPhase 0x00000000#32 s = .next s :=
  commandPhase_of_decode_ok s (decode_encode .nop)

/-- Settles O11. -/
theorem nopChangesNothing : Obligations.NopChangesNothing := fun s =>
  ⟨decode_encode .nop, rfl, fun _ => commandPhase_reservedField s 0 28 rfl (by decide) (by decide),
    (step_presentWord (commandPhase_nop s)).trans (step_noAccess s).symm⟩

/-! ## LOCK (42_control.md R123) -/

theorem lockCheck_of_locked {s : State} (hl : s.conf.locked = true) : lockCheck s = some .configLocked := by
  simp [lockCheck, hl]

theorem lockCheck_of_incomplete {s : State} (hl : s.conf.locked = false)
    (h : s.conf.cfgExtra = 0#2 ∨ s.conf.cfgSckHalf = 0#8 ∨ s.conf.cfgSlice = 0#16) :
    lockCheck s = some .configIncomplete := by
  simp [lockCheck, hl, h]

theorem lockCheck_of_complete {s : State} (hl : s.conf.locked = false) (hx : s.conf.cfgExtra ≠ 0#2)
    (hh : s.conf.cfgSckHalf ≠ 0#8) (hp : s.conf.cfgSlice ≠ 0#16) : lockCheck s = none := by
  simp [lockCheck, hl, hx, hh, hp]

/-- Once locked, every command that configures or locks is rejected with code 4. -/
theorem exec_config_of_locked {i : Instr} {s : State}
    (hi : i.opcode ∈ [Opcode.cfgExtra, .cfgTimeout, .cfgSck, .cfgPwm, .lock]) (hl : s.conf.locked = true) :
    exec i s = .next (s.recordError .configLocked) := by
  cases i with
  | nop | read | apply _ _ | clear => simp [Instr.opcode] at hi
  | cfgExtra _ | cfgTimeout _ | cfgSck _ | cfgPwm _ => exact exec_of_commandCheck_some (configCheck_of_locked hl _)
  | lock => exact exec_of_commandCheck_some (lockCheck_of_locked hl)

/-- Settles O16: that only reset unlocks is part of O58, and the two examples are runs from reset. -/
theorem lockRule : Obligations.LockRule := by
  intro s
  refine ⟨decode_encode .lock, fun hl hx hh hp => ?_, exec_config_of_locked (by decide), fun hl hc => ?_,
    fun w => commandPhase_reservedField s 0 28 rfl (by decide) (by decide), fun t h hr hl => ?_,
    fun i => exec_config_of_locked, ⟨_, rfl, rfl⟩, _, rfl, rfl, rfl⟩
  · rw [exec, execLock, lockCheck_of_complete hl hx hh hp, checked, State.setLocked]
  · exact exec_of_commandCheck_some (lockCheck_of_incomplete hl hc)
  · rw [lockedConfigurationIsFrozen s t h hr hl, hl]

/-! ## CLEAR (42_control.md R124) -/

/-- While no read is in progress and no drive is active or pending, the engines do not show in STATUS. -/
theorem enginePhase_statusReg_at_rest {s t : State} (hi : s.deser.rdState = .idle) (hs : t.pwm.actDir = .stop)
    (hv : t.pwm.pendValid = false) : (enginePhase s t).statusReg = t.statusReg := by
  have hm : ¬t.pwm.mayStart t.conf = true := by simp [Pwm.mayStart, hv]
  simp only [State.statusReg, State.busy, enginePhase_conf, enginePhase_err, enginePhase_pwm,
    enginePhase_deser_idle t hi, Pwm.advance_holds hs hm]

/-- CLEAR does not touch BUSY. -/
@[simp] theorem State.clearErr_busy (s : State) : s.clearErr.busy = s.busy := rfl

theorem Dir.toBits_eq_zero_iff (d : Dir) : d.toBits = 0#2 ↔ d = .stop := by cases d <;> decide

/-- Settles O25: the STATUS of the example shows no read and no drive, active or pending. -/
theorem clearRule : Obligations.ClearRule := by
  intro s
  refine ⟨decode_encode .clear, rfl, fun w => commandPhase_reservedField s 0 28 rfl (by decide) (by decide),
    fun t c h => ?_, fun hstatus => ⟨_, step_presentWord (commandPhase_clear s), ?_⟩⟩
  · cases h; rfl
  · have hf := s.statusReg_fields
    rw [hstatus] at hf
    obtain ⟨hbusy, hvalid, hnrdy, hlocked, -, -, -, hact, hpend, -, hduty, -, hlast, -⟩ := hf
    have hidle : s.busy = false := BitVec.ofBool_eq_iff_eq.1 hbusy.symm
    have hstop : s.clearErr.pwm.actDir = .stop := (Dir.toBits_eq_zero_iff _).1 hact.symm
    have hnone : s.clearErr.pwm.pendValid = false := BitVec.ofBool_eq_iff_eq.1 hpend.symm
    rw [enginePhase_statusReg_at_rest (by simpa [State.busy] using hidle) hstop hnone]
    simp only [State.statusReg, State.clearErr_busy, State.clearErr_conf, State.clearErr_deser, State.clearErr_pwm,
      State.clearErr_err, ← hbusy, ← hvalid, ← hnrdy, ← hlocked, ← hact, ← hpend, ← hduty, ← hlast]
    rfl

/-! ## The frame of the control commands -/

/-- The lock and the error record show in STATUS alone. -/
theorem readRegister_lockedErr (s : State) (l : Bool) (e : Err) {off : BitVec 5} (hstatus : off ≠ 0x04#5) :
    State.readRegister { s with conf := { s.conf with locked := l }, err := e } off = s.readRegister off :=
  readRegister_congr hstatus rfl (fun _ => ⟨rfl, rfl⟩) (fun _ => rfl) (fun _ => rfl) (fun _ => rfl) fun _ => rfl

/-- Settles O32: an accepted LOCK writes the lock alone, CLEAR the error record alone. -/
theorem controlCommandFrame : Obligations.ControlCommandFrame := by
  intro s t
  refine ⟨fun h => ?_, fun h => ?_, fun h => ?_⟩
  · cases h; rfl
  · obtain ⟨c, rfl⟩ | rfl := checked_cases h
    · simp only [State.recordError_conf, State.recordError_deser, State.recordError_pwm, State.recordError_inputs,
        State.recordError_cycle, or_true, true_and]
      exact fun off => readRegister_recordError c
    · exact ⟨rfl, rfl, rfl, rfl, rfl, rfl, rfl, rfl, .inl rfl, fun _ => readRegister_lockedErr s true s.err⟩
  · cases h
    exact ⟨rfl, rfl, rfl, rfl, rfl, fun _ => readRegister_lockedErr s s.conf.locked _⟩

end Sys2Proof.Machine
end

section
namespace Sys2Proof.Machine

/-! ## Errors do not stop the block (60_exceptions.md R130, R131) -/

/-- A rejection as a whole state: only the record can change, and an earlier error stays in it. -/
theorem State.recordError_eq (s : State) (c : ErrCode) :
    s.recordError c = { s with err := if s.err.cmdErr then s.err else { cmdErr := true, errCode := c } } := by
  unfold State.recordError
  cases s.err.cmdErr <;> rfl

/-- Settles O26. -/
theorem firstErrorIsKept : Obligations.FirstErrorIsKept := by
  intro s c
  rw [State.recordError_eq]
  exact ⟨fun h => by rw [h]; rfl, fun h => by rw [if_pos h]⟩

/-- The engines do not see the record: after a rejection they advance as in the cycle with no command. -/
theorem enginePhase_recordError (s : State) (c : ErrCode) :
    enginePhase s (s.recordError c) = { enginePhase s s with err := (s.recordError c).err } := by
  rw [State.recordError_eq]
  rfl

/-- After a rejected APPLY the PWM generator advances from the stopped intake, the deserializer as with no command. -/
theorem enginePhase_rejectApply (s : State) (c : ErrCode) :
    enginePhase s (s.rejectApply c) =
      { enginePhase s s with err := (s.recordError c).err, pwm := s.pwm.stopIntake.advance s.conf } := by
  rw [State.rejectApply_eq_stopped, State.recordError_eq]
  rfl

/-- Settles O27: the rejected word's command phase is O7's, and the engines see no more of it than the STOP of a
rejected APPLY. -/
theorem rejectionIsPrecise : Obligations.RejectionIsPrecise := by
  intro s w hw
  obtain ⟨c, hcode, hphase⟩ := (checkRunsInSpecOrder s w).1 hw
  refine ⟨_, _, c, step_presentWord hphase, step_noAccess s, hcode, ?_⟩
  rw [← State.recordError_err]
  by_cases hop : w.extractLsb' 28 4 = 0x7#4
  · rw [if_pos hop, if_pos hop, enginePhase_rejectApply]
  · rw [if_neg hop, if_neg hop, enginePhase_recordError]

/-- Settles O9. -/
theorem stepAlwaysAnswers : Obligations.StepAlwaysAnswers := by
  intro s h
  by_cases hr : s.input.rst = true
  · exact ⟨_, step_reset hr⟩
  · exact ⟨_, step_admitted ⟨Bool.eq_false_of_not_eq_true hr, h.resolve_left hr⟩⟩

end Sys2Proof.Machine
end

section
namespace Sys2Proof.Machine

/-! ## Reset (70_reset_and_hazards.md R139) -/

/-- Beside the fields of RESET_STATE a state holds only the inputs still to come and the cycle's number. -/
theorem State.eq_reset_of_fields {t : State} (hconf : t.conf = .reset) (hdeser : t.deser = .reset)
    (hpwm : t.pwm = .reset) (herr : t.err = .reset) :
    t = { State.reset with inputs := t.inputs, cycle := t.cycle } := by
  rw [State.reset, ← hconf, ← hdeser, ← hpwm, ← herr]

/-- Settles O40: the pins and the registers see only the fields of RESET_STATE. -/
theorem resetGivesResetState : Obligations.ResetGivesResetState := by
  refine ⟨fun s hr => ⟨resetCycle s, step_reset hr, rfl, rfl, rfl, rfl⟩, fun t hconf hdeser hpwm herr => ?_⟩
  rw [State.eq_reset_of_fields hconf hdeser hpwm herr]
  exact ⟨rfl, rfl, rfl, readRegister_reset⟩

/-! ## The earliest boot sequence (70_reset_and_hazards.md R143, R144) -/

/-- The configuration after an accepted CFG command or LOCK; the other commands write no configuration. -/
def Conf.written (c : Conf) : Instr → Option Conf
  | .cfgExtra n => some { c with cfgExtra := n }
  | .cfgTimeout t => some { c with cfgTimeout := t }
  | .cfgSck h => some { c with cfgSckHalf := h }
  | .cfgPwm p => some { c with cfgSlice := p }
  | .lock => some { c with locked := true }
  | .nop | .read | .apply _ _ | .clear => none

/-- An accepted CFG command or LOCK writes the configuration alone. -/
theorem exec_of_written {i : Instr} {s : State} {c : Conf} (hc : s.conf.written i = some c)
    (h : commandCheck s i = none) : exec i s = .next { s with conf := c } := by
  cases i with
  | nop | read | apply _ _ | clear => cases hc
  | cfgExtra _ | cfgTimeout _ | cfgSck _ | cfgPwm _ | lock => cases hc; exact congrArg (checked · s _) h

theorem configCheck_of_legal {s : State} {legal : Bool} (hl : s.conf.locked = false) (h : legal = true) :
    configCheck s legal = none :=
  (configCheck_of_unlocked hl legal).trans (if_pos h)

/-- The cycle in which the host writes a command's word to CMD. -/
def Input.writing (i : Instr) : Input := { Input.idle with busWr := true, busWdata := encode i }

/-- The block `k` cycles after reset when only its configuration has been written since: the engines are as reset left
them, but for the `k` STOP cycles counted. -/
def State.booting (c : Conf) (k : Nat) (l : List Input) : State :=
  { State.reset with conf := c, pwm := { Pwm.reset with stopCnt := sat23 k }, inputs := l, cycle := k }

theorem sat23_succ (k : Nat) : sat23 ((sat23 k).toNat + 1) = sat23 (k + 1) := by
  apply BitVec.eq_of_toNat_eq
  simp only [sat23_toNat]
  omega

/-- With nothing pending the engine phase only counts one more STOP cycle. -/
theorem enginePhase_booting (c c' : Conf) (k : Nat) (x : Input) (l : List Input) :
    enginePhase (.booting c k (x :: l)) (.booting c' k (x :: l)) = .booting c' (k + 1) l := by
  have hhold : Pwm.advance c' { Pwm.reset with stopCnt := sat23 k } = { Pwm.reset with stopCnt := sat23 (k + 1) } := by
    rw [Pwm.advance_holds rfl (by simp [Pwm.mayStart, Pwm.reset]), sat23_succ]
  exact congrArg (fun p => { State.booting c' (k + 1) l with pwm := p }) hhold

/-- One cycle of a boot sequence, with the rest of it. -/
theorem after_booting {i : Instr} {c c' : Conf} {j k : Nat} {l : List Input} {t : State} (hc : c.written i = some c')
    (h : commandCheck (.booting c k (Input.writing i :: l)) i = none)
    (ht : (State.booting c' (k + 1) l).after j = some t) :
    (State.booting c k (Input.writing i :: l)).after (j + 1) = some t := by
  have hphase := (commandPhase_of_decode_ok _ (decode_encode i)).trans (exec_of_written hc h)
  have hstep := step_admitted (s := .booting c k (Input.writing i :: l)) ⟨rfl, rfl⟩
  rw [State.postCommand_some rfl hphase] at hstep
  exact (after_succ (hstep.trans (congrArg Host.Outcome.next (enginePhase_booting c c' k _ l))) j).trans ht

/-- Settles O59: before the lock every legal value is accepted, and LOCK then finds every field configured. -/
theorem bootSequenceLocks : Obligations.BootSequenceLocks := by
  intro e v h p l he hh hp
  refine ⟨.booting { cfgExtra := e, cfgTimeout := v, cfgSckHalf := h, cfgSlice := p, locked := true } 5 l, ?_,
    rfl, rfl, rfl, rfl, rfl, rfl⟩
  change (State.booting .reset 0 (.writing (.cfgExtra e) :: .writing (.cfgTimeout v) :: .writing (.cfgSck h) ::
    .writing (.cfgPwm p) :: .writing .lock :: l)).after 5 = _
  refine after_booting rfl ?extra <| after_booting rfl ?timeout <| after_booting rfl ?sck <| after_booting rfl ?pwm <|
    after_booting rfl ?lock rfl
  case extra => exact configCheck_of_legal rfl (bne_iff_ne.2 he)
  case timeout => exact configCheck_of_legal rfl rfl
  case sck => exact configCheck_of_legal rfl (bne_iff_ne.2 hh)
  case pwm => exact configCheck_of_legal rfl (bne_iff_ne.2 hp)
  case lock => exact lockCheck_of_complete rfl he hh hp

end Sys2Proof.Machine
end

section
namespace Sys2Proof

/-! ## The words of the commands (30_encoding.md §2 and §5) -/

/-- Settles O1. -/
theorem decodeOfEncodeIsIdentity : Obligations.DecodeOfEncodeIsIdentity := decode_encode

/-- Settles O4: each word is the one `encode` gives its command. -/
theorem specWordsDecode : Obligations.SpecWordsDecode :=
  ⟨decode_encode (.apply .fwd 30), decode_encode (.apply .fwd 50), decode_encode (.apply .fwd 80),
    decode_encode (.apply .fwd 100), decode_encode (.apply .bwd 100), decode_encode (.cfgExtra 1),
    decode_encode (.cfgTimeout 3), decode_encode (.cfgSck 1), decode_encode (.cfgPwm 1), decode_encode (.apply .stop 0),
    decode_encode .nop, decode_encode .lock, decode_encode .read, decode_encode .clear⟩

end Sys2Proof
end
